-- ==== Sys2Proof/Word.lean ====
section
/-!
DEFINITION. The word types of the elgamal CORE: 64-bit words (R6, R9), 16-bit word addresses (R50),
wide-register numbers (R20, R81) and word vectors (R9).
-/
namespace Sys2Proof

/-- One 64-bit unit of a Fixed-Width Integer's storage (R6: `W = 64`; R12 "Word"). -/
abbrev Word := BitVec 64

/-- A word address of the register space: 16 bits, naming one 64-bit word (R50). -/
abbrev Addr := BitVec 16

/-- A wide register number: every 4-bit register field names one of the 16 registers (R20, R81). -/
abbrev Reg := Fin 16

/-- A word vector, least significant word first (R9). -/
abbrev Wide := List Word

end Sys2Proof
end

