-- ==== Sys2Proof/Syntax.lean ====
section
/-!
DEFINITION. The twelve commands of the engine (R84), one constructor per row of the opcode table,
each with the fields its format uses (R82) in the order destination, sources, modulus (R94).
-/
namespace Sys2Proof

/-- A decoded command. The immediate is the unsigned number of R92; that it fits the 32-bit field
is the one check of `Instr.WellFormed`. -/
inductive Instr where
  /-- ADD `rd, rs1, rs2` (R112). -/
  | add (rd rs1 rs2 : Reg)
  /-- SUB `rd, rs1, rs2` (R113). -/
  | sub (rd rs1 rs2 : Reg)
  /-- MULS `rd, rs1, #imm` (R122). -/
  | muls (rd rs1 : Reg) (imm : Nat)
  /-- SHL `rd, rs1, #imm` (R133). -/
  | shl (rd rs1 : Reg) (imm : Nat)
  /-- SHR `rd, rs1, #imm` (R134). -/
  | shr (rd rs1 : Reg) (imm : Nat)
  /-- BITLEN `rs1` (R143). -/
  | bitlen (rs1 : Reg)
  /-- CMP `rs1, rs2` (R144). -/
  | cmp (rs1 rs2 : Reg)
  /-- REDUCE `rd, rs1, rm` (R152). -/
  | reduce (rd rs1 rm : Reg)
  /-- REDUCEX `rd, rs1, rm` (R153). -/
  | reducex (rd rs1 rm : Reg)
  /-- MODMUL `rd, rs1, rs2, rm` (R161). -/
  | modmul (rd rs1 rs2 rm : Reg)
  /-- MODEXP `rd, rs1, rs2, rm` (R171). -/
  | modexp (rd rs1 rs2 rm : Reg)
  /-- MODINV `rd, rs1, rm` (R181). -/
  | modinv (rd rs1 rm : Reg)
deriving DecidableEq, Repr

end Sys2Proof
end

