-- ==== Sys2Proof/WellFormed.lean ====
section
/-!
DEFINITION. Which commands have an encoding: an immediate must fit the 32-bit field (R81, R92).
Register numbers need no check, since every value of `Reg` fits its 4-bit field (R81). A forbidden
equality of registers (R88) is NOT ill-formedness: such a word decodes and raises `AliasError`.
-/
namespace Sys2Proof

/-- The immediate of a command, 0 for a format without one (R82, R87). -/
def Instr.immediate (i : Instr) : Nat :=
  match i with
  | .muls _ _ imm => imm
  | .shl _ _ imm => imm
  | .shr _ _ imm => imm
  | .add _ _ _ => 0
  | .sub _ _ _ => 0
  | .bitlen _ => 0
  | .cmp _ _ => 0
  | .reduce _ _ _ => 0
  | .reducex _ _ _ => 0
  | .modmul _ _ _ _ => 0
  | .modexp _ _ _ _ => 0
  | .modinv _ _ _ => 0

/-- The command has an encoding: `0 <= imm <= 2^32 - 1` (R92). -/
abbrev Instr.WellFormed (i : Instr) : Prop := i.immediate < 2 ^ 32

end Sys2Proof
end

