-- ==== Sys2Proof/Decode.lean ====
section
/-!
DEFINITION. The command word: its fields (R81), the decoder (R82, R84, R85, R86, R89), the encoder
(R87), and the opcode table's match and mask columns (R84).
-/
namespace Sys2Proof

/-- `v[hi:lo]` of R8: the integer formed by bits `hi` down to `lo` of `v`. -/
def slice (v hi lo : Nat) : Nat := v / 2 ^ lo % 2 ^ (hi - lo + 1)

/-- The fields of a command word, as numbers (R81). -/
structure Fields where
  op : Nat
  rd : Nat
  rs1 : Nat
  rs2 : Nat
  rm : Nat
  z : Nat
  imm : Nat
deriving DecidableEq, Repr

/-- Cut a command word into its fields (R81). -/
def unpack (c : Word) : Fields :=
  { op := slice c.toNat 7 0
    rd := slice c.toNat 11 8
    rs1 := slice c.toNat 15 12
    rs2 := slice c.toNat 19 16
    rm := slice c.toNat 23 20
    z := slice c.toNat 31 24
    imm := slice c.toNat 63 32 }

/-- Why a word is no command (R89). Both reasons raise `IllegalCommand` and nothing distinguishes
them afterwards. -/
inductive Illegal where
  /-- The opcode is `0x00` or one of `0x0D` to `0xFF`. -/
  | unassignedOpcode
  /-- The opcode is assigned, but a field its format does not use, or `z`, is nonzero. -/
  | nonzeroUnusedField
deriving DecidableEq, Repr

/-- The wide register a register field names. -/
def regOfField (k : Nat) : Reg := Fin.ofNat 16 k

/-- A command, provided the fields its format leaves unused are all zero (R86). -/
def whenZero (unused : List Nat) (i : Instr) : Except Illegal Instr :=
  if unused.all (· == 0) then .ok i else .error .nonzeroUnusedField

/-- Decode by opcode (R84) and format (R82). -/
def decodeFields (f : Fields) : Except Illegal Instr :=
  match f.op with
  | 0x01 => whenZero [f.rm, f.z, f.imm] (.add (regOfField f.rd) (regOfField f.rs1) (regOfField f.rs2))
  | 0x02 => whenZero [f.rm, f.z, f.imm] (.sub (regOfField f.rd) (regOfField f.rs1) (regOfField f.rs2))
  | 0x03 => whenZero [f.rs2, f.rm, f.z] (.muls (regOfField f.rd) (regOfField f.rs1) f.imm)
  | 0x04 => whenZero [f.rs2, f.rm, f.z] (.shl (regOfField f.rd) (regOfField f.rs1) f.imm)
  | 0x05 => whenZero [f.rs2, f.rm, f.z] (.shr (regOfField f.rd) (regOfField f.rs1) f.imm)
  | 0x06 => whenZero [f.rd, f.rs2, f.rm, f.z, f.imm] (.bitlen (regOfField f.rs1))
  | 0x07 => whenZero [f.rd, f.rm, f.z, f.imm] (.cmp (regOfField f.rs1) (regOfField f.rs2))
  | 0x08 => whenZero [f.rs2, f.z, f.imm] (.reduce (regOfField f.rd) (regOfField f.rs1) (regOfField f.rm))
  | 0x09 => whenZero [f.rs2, f.z, f.imm] (.reducex (regOfField f.rd) (regOfField f.rs1) (regOfField f.rm))
  | 0x0A => whenZero [f.z, f.imm]
      (.modmul (regOfField f.rd) (regOfField f.rs1) (regOfField f.rs2) (regOfField f.rm))
  | 0x0B => whenZero [f.z, f.imm]
      (.modexp (regOfField f.rd) (regOfField f.rs1) (regOfField f.rs2) (regOfField f.rm))
  | 0x0C => whenZero [f.rs2, f.z, f.imm] (.modinv (regOfField f.rd) (regOfField f.rs1) (regOfField f.rm))
  | _ => .error .unassignedOpcode

/-- `decode(c)` of R85: a total function of the 64-bit word alone. -/
def decode (c : Word) : Except Illegal Instr := decodeFields (unpack c)

/-- The field values of a command, 0 for every field its format does not use (R87). -/
def fieldsOf (i : Instr) : Fields :=
  match i with
  | .add rd rs1 rs2 => { op := 0x01, rd := rd, rs1 := rs1, rs2 := rs2, rm := 0, z := 0, imm := 0 }
  | .sub rd rs1 rs2 => { op := 0x02, rd := rd, rs1 := rs1, rs2 := rs2, rm := 0, z := 0, imm := 0 }
  | .muls rd rs1 imm => { op := 0x03, rd := rd, rs1 := rs1, rs2 := 0, rm := 0, z := 0, imm := imm }
  | .shl rd rs1 imm => { op := 0x04, rd := rd, rs1 := rs1, rs2 := 0, rm := 0, z := 0, imm := imm }
  | .shr rd rs1 imm => { op := 0x05, rd := rd, rs1 := rs1, rs2 := 0, rm := 0, z := 0, imm := imm }
  | .bitlen rs1 => { op := 0x06, rd := 0, rs1 := rs1, rs2 := 0, rm := 0, z := 0, imm := 0 }
  | .cmp rs1 rs2 => { op := 0x07, rd := 0, rs1 := rs1, rs2 := rs2, rm := 0, z := 0, imm := 0 }
  | .reduce rd rs1 rm => { op := 0x08, rd := rd, rs1 := rs1, rs2 := 0, rm := rm, z := 0, imm := 0 }
  | .reducex rd rs1 rm => { op := 0x09, rd := rd, rs1 := rs1, rs2 := 0, rm := rm, z := 0, imm := 0 }
  | .modmul rd rs1 rs2 rm => { op := 0x0A, rd := rd, rs1 := rs1, rs2 := rs2, rm := rm, z := 0, imm := 0 }
  | .modexp rd rs1 rs2 rm => { op := 0x0B, rd := rd, rs1 := rs1, rs2 := rs2, rm := rm, z := 0, imm := 0 }
  | .modinv rd rs1 rm => { op := 0x0C, rd := rd, rs1 := rs1, rs2 := 0, rm := rm, z := 0, imm := 0 }

/-- The sum of R87, as a number. -/
def packNat (f : Fields) : Nat :=
  f.op + f.rd * 2 ^ 8 + f.rs1 * 2 ^ 12 + f.rs2 * 2 ^ 16 + f.rm * 2 ^ 20 + f.z * 2 ^ 24 + f.imm * 2 ^ 32

/-- The word of a command (R87). -/
def encode (i : Instr) : Word := BitVec.ofNat 64 (packNat (fieldsOf i))

/-- One row of the opcode table's match and mask columns (R84). -/
structure OpcodeRow where
  mnemonic : String
  pattern : Word
  mask : Word
deriving DecidableEq, Repr

/-- The word `c` has this row's bits: `c AND mask = match` (R84). -/
def OpcodeRow.matches (r : OpcodeRow) (c : Word) : Bool := c &&& r.mask == r.pattern

/-- The opcode table of R84, row by row. The decoder does not use it: that it agrees with the
decoder is a statement about both. -/
def opcodeTable : List OpcodeRow :=
  [ { mnemonic := "ADD",     pattern := 0x0000000000000001, mask := 0xFFFFFFFFFFF000FF },
    { mnemonic := "SUB",     pattern := 0x0000000000000002, mask := 0xFFFFFFFFFFF000FF },
    { mnemonic := "MULS",    pattern := 0x0000000000000003, mask := 0x00000000FFFF00FF },
    { mnemonic := "SHL",     pattern := 0x0000000000000004, mask := 0x00000000FFFF00FF },
    { mnemonic := "SHR",     pattern := 0x0000000000000005, mask := 0x00000000FFFF00FF },
    { mnemonic := "BITLEN",  pattern := 0x0000000000000006, mask := 0xFFFFFFFFFFFF0FFF },
    { mnemonic := "CMP",     pattern := 0x0000000000000007, mask := 0xFFFFFFFFFFF00FFF },
    { mnemonic := "REDUCE",  pattern := 0x0000000000000008, mask := 0xFFFFFFFFFF0F00FF },
    { mnemonic := "REDUCEX", pattern := 0x0000000000000009, mask := 0xFFFFFFFFFF0F00FF },
    { mnemonic := "MODMUL",  pattern := 0x000000000000000A, mask := 0xFFFFFFFFFF0000FF },
    { mnemonic := "MODEXP",  pattern := 0x000000000000000B, mask := 0xFFFFFFFFFF0000FF },
    { mnemonic := "MODINV",  pattern := 0x000000000000000C, mask := 0xFFFFFFFFFF0F00FF } ]

/-- A command's mnemonic (R84). -/
def Instr.mnemonic (i : Instr) : String :=
  match i with
  | .add _ _ _ => "ADD"
  | .sub _ _ _ => "SUB"
  | .muls _ _ _ => "MULS"
  | .shl _ _ _ => "SHL"
  | .shr _ _ _ => "SHR"
  | .bitlen _ => "BITLEN"
  | .cmp _ _ => "CMP"
  | .reduce _ _ _ => "REDUCE"
  | .reducex _ _ _ => "REDUCEX"
  | .modmul _ _ _ _ => "MODMUL"
  | .modexp _ _ _ _ => "MODEXP"
  | .modinv _ _ _ => "MODINV"

/-- The instruction the decoder reads from the `nbits` low bits of `w`, none where it refuses. A
command is one 64-bit word (R80), so a number that does not fit 64 bits is no command. -/
def decodeTableWord (nbits w : Nat) : Option Instr :=
  if w % 2 ^ nbits < 2 ^ 64 then (decode (BitVec.ofNat 64 (w % 2 ^ nbits))).toOption else none

end Sys2Proof
end

