-- ==== Sys2Proof/Config.lean ====
section
/-!
DEFINITION. What is fixed when the engine is built (R6), and the values the spec leaves open.
-/
namespace Sys2Proof.Config

/-- `NR`, the number of wide registers (R6, R20). -/
def NR : Nat := 16

/-- `W`, the word width in bits (R6). -/
def W : Nat := 64

/-- The largest word count `N` the register window has room for (R6, R53). -/
def maxN : Nat := 256

/-- The word count of `State.reset`: the source's example width, `N = 16` (R6). `N` is the spec's one
open parameter; a state holds its own, and a statement about every state holds for every `N`
(assumption 1). DESIGN CHOICE. -/
def resetN : Nat := 16

/-- FREE VALUE. Word `j` of wide register `i` after the reset that draws number `k`: some 64-bit
value that no rule constrains (R40, R231, U1 of the spec's 93). No body: nothing can be proved of
it (assumption 2). -/
opaque resetWord : (k i j : Nat) → Word

/-- FREE VALUE. How long a command stays in flight that is accepted at draw number `k` with the word
`c`, while the wide registers hold `regs` and XW holds `xw`: any finite number of steps (R38, R241,
U2 of the spec's 93), which may differ with the command and with every operand value, since the
engine promises no constant time (R243). No body (assumption 3). -/
opaque latency : (k : Nat) → (c : Word) → (regs : Vector Wide 16) → (xw : Word) → Nat

end Sys2Proof.Config
end

