-- ==== Sys2Proof/Machine/State.lean ====
section
/-!
DEFINITION. The engine's state as plain data: the word count, the wide registers, the scalar
registers, STATUS, the host's side of the register bus, and the model's own two counters.
-/
namespace Sys2Proof.Machine

/-- The error kinds of R200, with the spec's names. -/
inductive Error where
  /-- A modular command whose modulus register is all zero (R201). -/
  | domainError
  /-- MODINV of a value that has no inverse (R202). -/
  | noInverseError
  /-- Reserved, raised by no command (R203). -/
  | overflowError
  /-- Reserved, raised by no command (R203). -/
  | rangeError
  /-- A word that decodes to no command (R204). -/
  | illegalCommand
  /-- A destination register that is also a source (R205). -/
  | aliasError
deriving DecidableEq, Repr

/-- The fields of STATUS (R26). The reserved bits are no field: they always read as 0, which
`statusWord` says. `cmp` and `err` are the numbers software reads, so that "`0b10` is never
produced" and "3 or 4 is never raised" are statements about the machine. -/
structure Status where
  busy : Bool
  carry : Bool
  borrow : Bool
  ovf : Bool
  cmp : BitVec 2
  err : BitVec 4
deriving DecidableEq, Repr

/-- What the host does at the engine's boundary: no access, one of the two bus transactions of R51,
or the input `rst` (R230), which is a step of its own between transactions (U9 of the spec's 93). -/
inductive HostAction where
  /-- No access is presented for one step. -/
  | idle
  /-- `BusRead(addr)`. -/
  | read (addr : Addr)
  /-- `BusWrite(addr, v)`. -/
  | write (addr : Addr) (v : Word)
  /-- `rst` is sampled high. -/
  | reset
deriving DecidableEq, Repr

/-- The state. `CONFIG` (R28) is no field of its own: it is a constant that shows `n`
(`configWord`). The sequencing state of R32 is `status.busy`. The internal scratch of R31 is not
represented (assumption 4). -/
structure State where
  /-- `N`, the word count of a Fixed-Width Integer: fixed when the engine is built (R6, R41), carried
  here so that one model serves every `N`; nothing changes it. -/
  n : Nat
  /-- The wide registers `r0` to `r15` (R20), each a vector of `n` words. -/
  regs : Vector Wide 16
  /-- `XW`, the extension word (R23). -/
  xw : Word
  /-- `LEN`, the bit-length result (R24). -/
  len : Word
  /-- `CMD`, the word most recently accepted (R25). -/
  cmd : Word
  /-- `STATUS` (R26). -/
  status : Status
  /-- The host's coming actions, the next one first; the first is the one presented now. An access
  stays first until it is performed (R51, R58). -/
  host : List HostAction
  /-- The values the host's reads have returned, oldest first (R51, R57). -/
  replies : List Word
  /-- The model's own: how many more steps the command in flight takes before its completion. -/
  delay : Nat
  /-- The model's own: how many draws of free values have been made; the next draw is this number. -/
  fresh : Nat
deriving DecidableEq, Repr

/-- Reasons for a fault. There is none: the engine has no trap, no bus error and no machine check
(R54, R61, R209), and every command ends by a normal or an error completion (R38). -/
inductive Fault where
deriving DecidableEq, Repr

/-- Reasons for a refusal. -/
inductive Refusal where
  /-- An instruction that has no meaning in the model yet, by its mnemonic; raised by an arm of `exec`
  only. Safe: the model stops where the hardware goes on. No arm raises it now. -/
  | notModelled (mnemonic : String)
deriving DecidableEq, Repr

/-- The answer of a step. -/
abbrev Answer := Host.Outcome State Fault Refusal

/-- The reset value of STATUS: IDLE, no flags, CMP = equal, ERR = 0 (R40). -/
def Status.zero : Status :=
  { busy := false, carry := false, borrow := false, ovf := false, cmp := 0, err := 0 }

/-- A register file of `n`-word registers, word `j` of register `i` being `file i j`. -/
def fillRegs (n : Nat) (file : Nat → Nat → Word) : Vector Wide 16 :=
  ⟨⟨(List.range 16).map fun i => (List.range n).map (file i)⟩, by simp⟩

/-- The state of R40 with `n`-word registers: everything 0, but for the wide registers, which hold
free values, those of draw `k`. The host's side is as given. -/
def State.resetWith (n k : Nat) (host : List HostAction) (replies : List Word) : State :=
  { n := n
    regs := fillRegs n (Config.resetWord k)
    xw := 0
    len := 0
    cmd := 0
    status := Status.zero
    host := host
    replies := replies
    delay := 0
    fresh := k + 1 }

/-- The machine right after its first reset, the host doing nothing. -/
def State.reset : State := State.resetWith Config.resetN 0 [] []

end Sys2Proof.Machine
end

