-- ==== Sys2Proof/Machine/Words.lean ====
section
/-!
DEFINITION. Word vectors and the integers they stand for (R8, R9), the zero test (R201) and the bit
length and comparison functions (R140, R141) that several families use.
-/
namespace Sys2Proof.Machine

/-- `val(X)` of R9. -/
def val : Wide → Nat
  | [] => 0
  | x :: xs => x.toNat + 2 ^ 64 * val xs

/-- `words_L(v)` of R9: the `L`-word vector of value `v` (of `v mod 2^(64 L)`, where `v` is larger). -/
def words : Nat → Nat → Wide
  | 0, _ => []
  | L + 1, v => BitVec.ofNat 64 v :: words L (v / 2 ^ 64)

/-- `zext_L(X)` of R8: zero words appended at the high end. -/
def zext (L : Nat) (X : Wide) : Wide := X ++ List.replicate (L - X.length) 0

/-- Word `j` of a vector, 0 where it has none. -/
def wordAt (X : Wide) (j : Nat) : Word := X.getD j 0

/-- Every word is 0: the test of R201. -/
def isZero (X : Wide) : Bool := X.all (· == 0)

/-- `bitlen_L(A)` of R140: the index of the highest set bit plus one, 0 for an all-zero vector. The
highest nonzero word decides; in it `Nat.log2` is the largest set bit position. -/
def bitlen : Wide → Nat
  | [] => 0
  | x :: xs =>
    let above := bitlen xs
    if above ≠ 0 then 64 + above
    else if x = 0 then 0
    else x.toNat.log2 + 1

/-- `cmp_L(A, B)` of R141: -1, 0 or 1; the most significant unequal pair of words decides. -/
def cmpWide : Wide → Wide → Int
  | a :: as, b :: bs =>
    let above := cmpWide as bs
    if above ≠ 0 then above
    else if a.toNat < b.toNat then -1
    else if b.toNat < a.toNat then 1
    else 0
  | _, _ => 0

end Sys2Proof.Machine
end

