-- ==== Sys2Proof/Machine/Flags.lean ====
section
/-!
DEFINITION. The layout of STATUS (R26), the error codes (R200), and what each completion writes to
the fields of STATUS (R27, R29, R206).
-/
namespace Sys2Proof.Machine

/-- The number of a flag bit. -/
def bit (b : Bool) : Nat := if b then 1 else 0

/-- STATUS as the 64-bit word a read returns (R26); bits 7:6 and 63:12 are 0. -/
def statusWord (st : Status) : Word :=
  BitVec.ofNat 64 (bit st.busy + bit st.carry * 2 ^ 1 + bit st.borrow * 2 ^ 2 + bit st.ovf * 2 ^ 3
    + st.cmp.toNat * 2 ^ 4 + st.err.toNat * 2 ^ 8)

/-- The code of an error (R200). -/
def errorCode (e : Error) : BitVec 4 :=
  match e with
  | .domainError => 1
  | .noInverseError => 2
  | .overflowError => 3
  | .rangeError => 4
  | .illegalCommand => 5
  | .aliasError => 6

/-- STATUS after a normal completion: IDLE, `ERR = 0`, and every flag the command does not define 0
(R27, R36). -/
def normalStatus (carry borrow ovf : Bool) (cmp : BitVec 2) : Status :=
  { busy := false, carry := carry, borrow := borrow, ovf := ovf, cmp := cmp, err := 0 }

/-- STATUS after an error completion: IDLE, all flags 0, the code in `ERR` (R206). -/
def errorStatus (e : Error) : Status :=
  { busy := false, carry := false, borrow := false, ovf := false, cmp := 0, err := errorCode e }

/-- ADD: CARRY is the carry out (R112). -/
def addStatus (carry : Nat) : Status := normalStatus (carry != 0) false false 0

/-- SUB: BORROW is the borrow out (R113). -/
def subStatus (borrow : Nat) : Status := normalStatus false (borrow != 0) false 0

/-- MULS: OVF says that word `N` of the product is nonzero (R122). -/
def mulsStatus (top : Word) : Status := normalStatus false false (top != 0) 0

/-- SHL: OVF says that a set bit left the register (R133). -/
def shlStatus (lost : Bool) : Status := normalStatus false false lost 0

/-- The CMP code of R144: the sign as a 2-bit two's-complement number. -/
def cmpCode (s : Int) : BitVec 2 := if s = 0 then 0b00 else if s = 1 then 0b01 else 0b11

/-- CMP: the field CMP is the result (R144). -/
def cmpStatus (s : Int) : Status := normalStatus false false false (cmpCode s)

/-- SHR, BITLEN and the modular commands define no flag (R29). -/
def plainStatus : Status := normalStatus false false false 0

end Sys2Proof.Machine
end

