-- ==== Sys2Proof/Machine/Ops.lean ====
section
/-!
DEFINITION. The named operations over the registers: reading and writing a register, accepting a
command (R34), the two ways a command ends (R36 and R206, the engine's counterpart of taking an
exception: it has no handler and nothing to return from, R212), reset (R230), and the two bus
transactions in the IDLE state (R57).
-/
namespace Sys2Proof.Machine

/-- `R[i]` (R10). -/
def State.reg (s : State) (i : Reg) : Wide := s.regs[i]

/-- `R[i] <- X` (R10). -/
def State.setReg (s : State) (i : Reg) (X : Wide) : State := { s with regs := s.regs.set i X }

/-- `R[i][j] <- v`: one word of a wide register, no other word changes (R57). -/
def State.setRegWord (s : State) (i : Reg) (j : Nat) (v : Word) : State :=
  s.setReg i ((s.reg i).set j v)

/-- The constant `CONFIG` shows (R28): bits 15:0 `N`, 23:16 `NR`, 31:24 `W`. -/
def configWord (n : Nat) : Word := BitVec.ofNat 64 (n + Config.NR * 2 ^ 16 + Config.W * 2 ^ 24)

/-- The status step of a normal completion; the result writes are made beside it, in the same step
(R36). -/
def complete (st : Status) (s : State) : State := { s with status := st }

/-- `raise <Error>`: the error completion of R206. Nothing but STATUS changes. -/
def raise (e : Error) (s : State) : State := { s with status := errorStatus e }

/-- Acceptance of a command word (R34). How long the command stays in flight is a free value (R241)
that depends on the command and on the operands it finds (R243). -/
def accept (c : Word) (s : State) : State :=
  { s with
    cmd := c
    status := { s.status with busy := true }
    delay := Config.latency s.fresh c s.regs s.xw
    fresh := s.fresh + 1 }

/-- The effect of a rising edge with `rst = 1` (R230, R231, R232), whatever the state was. -/
def resetEngine (s : State) : State := State.resetWith s.n s.fresh s.host s.replies

/-- What a word address names (R52, R53, R54). -/
inductive Place where
  | config
  | cmd
  | status
  | xw
  | len
  | regWord (i : Reg) (j : Nat)
  | unmapped
deriving DecidableEq, Repr

/-- The address map for `n`-word registers (R52, R53, R54). -/
def place (n : Nat) (a : Addr) : Place :=
  if a = 0x0000 then .config
  else if a = 0x0001 then .cmd
  else if a = 0x0002 then .status
  else if a = 0x0003 then .xw
  else if a = 0x0004 then .len
  else if 0x1000 ≤ a.toNat ∧ a.toNat < 0x2000 ∧ a.toNat % 256 < n then
    .regWord (Fin.ofNat 16 ((a.toNat - 0x1000) / 256)) (a.toNat % 256)
  else .unmapped

/-- The value `BusRead(a)` returns (R52, R53, R54, R57). -/
def busRead (s : State) (a : Addr) : Word :=
  match place s.n a with
  | .config => configWord s.n
  | .cmd => s.cmd
  | .status => statusWord s.status
  | .xw => s.xw
  | .len => s.len
  | .regWord i j => wordAt (s.reg i) j
  | .unmapped => 0

/-- The effect of `BusWrite(a, v)` in the IDLE state (R57): read-only and unmapped addresses ignore
it (R52, R54). -/
def busWrite (a : Addr) (v : Word) (s : State) : State :=
  match place s.n a with
  | .config => s
  | .cmd => accept v s
  | .status => s
  | .xw => { s with xw := v }
  | .len => s
  | .regWord i j => s.setRegWord i j v
  | .unmapped => s

/-- A performed read: its value goes to the host and nothing else changes (R57, R60). -/
def performRead (a : Addr) (s : State) : State :=
  { s with replies := s.replies ++ [busRead s a] }

/-- The engine as it stands when the command word of the `nbits` low bits of `w` has been accepted
and is about to complete. The host presents nothing for one step, so that no reset overrides the
completion. -/
def placeCommand (s : State) (nbits w : Nat) : State :=
  { s with
    cmd := BitVec.ofNat 64 (w % 2 ^ nbits)
    status := { s.status with busy := true }
    delay := 0
    host := .idle :: s.host }

end Sys2Proof.Machine
end

