-- ==== Sys2Proof/Machine/Operands.lean ====
section
/-!
DEFINITION. Operand roles (R83) and the in-place rule (R88): which registers a command reads and
writes, and which equalities of register numbers it refuses.
-/
namespace Sys2Proof.Machine

/-- `rd = rs1`: refused by MULS (R88). -/
def aliasesOne (rd rs1 : Reg) : Bool := rd == rs1

/-- The destination is one of two sources: refused by ADD and SUB (`rs1`, `rs2`) and by REDUCE,
REDUCEX and MODINV (`rs1`, `rm`) (R88). -/
def aliasesTwo (rd a b : Reg) : Bool := rd == a || rd == b

/-- The destination is one of three sources: refused by MODMUL and MODEXP (R88). -/
def aliasesThree (rd rs1 rs2 rm : Reg) : Bool := rd == rs1 || rd == rs2 || rd == rm

/-- The `N+1`-word dividend of REDUCEX, `{XW, R[rs1]}` (R153). -/
def extendedDividend (s : State) (rs1 : Reg) : Wide := s.reg rs1 ++ [s.xw]

end Sys2Proof.Machine
end

