-- ==== Sys2Proof/Machine/AddSub.lean ====
section
/-!
DEFINITION. Multi-word addition and subtraction (R110 to R113).
-/
namespace Sys2Proof.Machine

/-- The loop of R110 from a word on, with the carry `c` into it. -/
def addFrom (c : Nat) : Wide → Wide → Wide × Nat
  | a :: as, b :: bs =>
    let t := a.toNat + b.toNat + c
    let above := addFrom (t / 2 ^ 64) as bs
    (BitVec.ofNat 64 t :: above.1, above.2)
  | _, _ => ([], c)

/-- `add_L(A, B) -> (S, carry)` of R110. -/
def addWide (A B : Wide) : Wide × Nat := addFrom 0 A B

/-- The loop of R111 from a word on, with the borrow `b` into it; `t < 0` is `A[i] < B[i] + b`. -/
def subFrom (c : Nat) : Wide → Wide → Wide × Nat
  | a :: as, b :: bs =>
    let t : Int := (a.toNat : Int) - b.toNat - c
    let above := subFrom (if t < 0 then 1 else 0) as bs
    (BitVec.ofNat 64 (if t < 0 then t + 2 ^ 64 else t).toNat :: above.1, above.2)
  | _, _ => ([], c)

/-- `sub_L(A, B) -> (D, borrow)` of R111. -/
def subWide (A B : Wide) : Wide × Nat := subFrom 0 A B

/-- ADD (R112). -/
def execAdd (rd rs1 rs2 : Reg) (s : State) : Answer :=
  .next <|
    if aliasesTwo rd rs1 rs2 then raise .aliasError s
    else
      let r := addWide (s.reg rs1) (s.reg rs2)
      complete (addStatus r.2) (s.setReg rd r.1)

/-- SUB (R113). -/
def execSub (rd rs1 rs2 : Reg) (s : State) : Answer :=
  .next <|
    if aliasesTwo rd rs1 rs2 then raise .aliasError s
    else
      let r := subWide (s.reg rs1) (s.reg rs2)
      complete (subStatus r.2) (s.setReg rd r.1)

end Sys2Proof.Machine
end

