-- ==== Sys2Proof/Machine/BitlenCmp.lean ====
section
/-!
DEFINITION. BITLEN (R143) and CMP (R144). Their functions (R140, R141) are in Machine/Words.lean.
-/
namespace Sys2Proof.Machine

/-- BITLEN (R143): the length goes to LEN, zero-extended. -/
def execBitlen (rs1 : Reg) (s : State) : Answer :=
  .next <| complete plainStatus { s with len := BitVec.ofNat 64 (bitlen (s.reg rs1)) }

/-- CMP (R144): only STATUS is written. -/
def execCmp (rs1 rs2 : Reg) (s : State) : Answer :=
  .next <| complete (cmpStatus (cmpWide (s.reg rs1) (s.reg rs2))) s

end Sys2Proof.Machine
end

