-- ==== Sys2Proof/Machine/Muls.lean ====
section
/-!
DEFINITION. Multiplication by a 32-bit scalar (R120, R122).
-/
namespace Sys2Proof.Machine

/-- The loop of R120 from a word on, with the carry `c` into it: each word is split into two 32-bit
halves, and the last word of the answer is the overflow word. -/
def mulsFrom (s c : Nat) : Wide → Wide
  | [] => [BitVec.ofNat 64 c]
  | a :: as =>
    let lo := slice a.toNat 31 0
    let hi := slice a.toNat 63 32
    let t := lo * s + hi * s * 2 ^ 32 + c
    BitVec.ofNat 64 t :: mulsFrom s (t / 2 ^ 64) as

/-- `muls_L(A, s) -> P` of R120, `L + 1` words. -/
def mulsWide (A : Wide) (s : Nat) : Wide := mulsFrom s 0 A

/-- MULS (R122). -/
def execMuls (rd rs1 : Reg) (imm : Nat) (s : State) : Answer :=
  .next <|
    if aliasesOne rd rs1 then raise .aliasError s
    else
      let P := mulsWide (s.reg rs1) imm
      let top := wordAt P s.n
      complete (mulsStatus top) { s.setReg rd (P.take s.n) with xw := top }

end Sys2Proof.Machine
end

