-- ==== Sys2Proof/Machine/Shift.lean ====
section
/-!
DEFINITION. Logical shifts across word boundaries (R130, R131, R133, R134). The only commands whose
destination may be their source (R88): the source is read whole before anything is written (R35).
-/
namespace Sys2Proof.Machine

/-- Word `i` of the left shift of `A` by `k` (R130). -/
def shlWord (A : Wide) (k i : Nat) : Word :=
  let ws := k / 64
  let bs := k % 64
  if i < ws then 0
  else
    let j := i - ws
    let x := (wordAt A j).toNat * 2 ^ bs % 2 ^ 64
    if bs > 0 ∧ 1 ≤ j then BitVec.ofNat 64 (x + (wordAt A (j - 1)).toNat / 2 ^ (64 - bs))
    else BitVec.ofNat 64 x

/-- `shl_L(A, k) -> (S, lost)` of R130. -/
def shlWide (A : Wide) (k : Nat) : Wide × Bool :=
  ((List.range A.length).map (shlWord A k), !isZero A && decide (bitlen A + k > 64 * A.length))

/-- Word `i` of the right shift of `A` by `k` (R131). -/
def shrWord (A : Wide) (k i : Nat) : Word :=
  let ws := k / 64
  let bs := k % 64
  let j := i + ws
  let x := if j < A.length then (wordAt A j).toNat / 2 ^ bs else 0
  if bs > 0 ∧ j + 1 < A.length then
    BitVec.ofNat 64 (x + (wordAt A (j + 1)).toNat * 2 ^ (64 - bs) % 2 ^ 64)
  else BitVec.ofNat 64 x

/-- `shr_L(A, k) -> S` of R131. -/
def shrWide (A : Wide) (k : Nat) : Wide := (List.range A.length).map (shrWord A k)

/-- SHL (R133). -/
def execShl (rd rs1 : Reg) (imm : Nat) (s : State) : Answer :=
  .next <|
    let r := shlWide (s.reg rs1) imm
    complete (shlStatus r.2) (s.setReg rd r.1)

/-- SHR (R134). -/
def execShr (rd rs1 : Reg) (imm : Nat) (s : State) : Answer :=
  .next <| complete plainStatus (s.setReg rd (shrWide (s.reg rs1) imm))

end Sys2Proof.Machine
end

