-- ==== Sys2Proof/Machine/Reduce.lean ====
section
/-!
DEFINITION. Modular reduction by binary long division (R150, R152, R153).
-/
namespace Sys2Proof.Machine

/-- One compare-and-subtract: `r - d` where `r >= d`, else `r` (R150). -/
def reduceStep (r d : Wide) : Wide := if cmpWide r d ≥ 0 then (subWide r d).1 else r

/-- The loop of R150: a compare-and-subtract at every alignment from `sh` down to 0, both ends
included (C2 of the spec's 90). -/
def reduceLoop : (sh : Nat) → (r d : Wide) → Wide
  | 0, r, d => reduceStep r d
  | sh + 1, r, d => reduceLoop sh (reduceStep r d) (shrWide d 1)

/-- `reduce_L(A, M) -> Rm` of R150 for an `N`-word modulus, `L` the length of `A`; the result has
`N` words. -/
def reduceWide (N : Nat) (A M : Wide) : Wide :=
  let Mx := zext A.length M
  let la := bitlen A
  let lm := bitlen Mx
  if la < lm then A.take N
  else (reduceLoop (la - lm) A (shlWide Mx (la - lm)).1).take N

/-- REDUCE (R152). -/
def execReduce (rd rs1 rm : Reg) (s : State) : Answer :=
  .next <|
    if aliasesTwo rd rs1 rm then raise .aliasError s
    else if isZero (s.reg rm) then raise .domainError s
    else complete plainStatus (s.setReg rd (reduceWide s.n (s.reg rs1) (s.reg rm)))

/-- REDUCEX (R153): the dividend has XW as its top word. -/
def execReducex (rd rs1 rm : Reg) (s : State) : Answer :=
  .next <|
    if aliasesTwo rd rs1 rm then raise .aliasError s
    else if isZero (s.reg rm) then raise .domainError s
    else complete plainStatus (s.setReg rd (reduceWide s.n (extendedDividend s rs1) (s.reg rm)))

end Sys2Proof.Machine
end

