-- ==== Sys2Proof/Machine/Modular.lean ====
section
/-!
DEFINITION. Modular multiplication, exponentiation and inverse (R160, R161, R170, R171, R180, R181).
-/
namespace Sys2Proof.Machine

/-- The combined partial product of `A` and one word of `B`, `N + 1` words (R160). -/
def partialProduct (A : Wide) (b : Word) : Wide :=
  let plo := mulsWide A (slice b.toNat 31 0)
  let phi := mulsWide A (slice b.toNat 63 32)
  (addWide plo (shlWide phi 32).1).1

/-- The passes of R160 over the words of `B` from word `i` up: each partial product is widened to
the `T` words of the accumulator, placed at digit `i` and added in. -/
def accumulate (T : Nat) (A : Wide) : (i : Nat) → (B total : Wide) → Wide
  | _, [], total => total
  | i, b :: bs, total =>
    let sp := (shlWide (zext T (partialProduct A b)) (64 * i)).1
    accumulate T A (i + 1) bs (addWide total sp).1

/-- `modmul(A, B, M) -> Rm` of R160, with the accumulator of `T = 2 N` words (C1 of the spec's 90). -/
def modmulWide (N : Nat) (A B M : Wide) : Wide :=
  reduceWide N (accumulate (2 * N) A 0 B (List.replicate (2 * N) 0)) M

/-- The loop of R170. `fuel` bounds the passes; the loop ends by its own test, when the exponent's
bit length is 0. -/
def modexpLoop (N : Nat) (M : Wide) : (fuel : Nat) → (res b e : Wide) → Wide
  | 0, res, _, _ => res
  | fuel + 1, res, b, e =>
    if bitlen e > 0 then
      let res' := if slice (wordAt e 0).toNat 0 0 = 1 then modmulWide N res b M else res
      modexpLoop N M fuel res' (modmulWide N b b M) (shrWide e 1)
    else res

/-- `modexp(Bs, E, M) -> Rm` of R170. An exponent of `N` words needs at most `64 N` passes. -/
def modexpWide (N : Nat) (Bs E M : Wide) : Wide :=
  modexpLoop N M (64 * E.length) (words N 1) Bs E

/-- The extended Euclidean algorithm of R183 on integers, from remainders `r0`, `r1` and signed
coefficients `t0`, `t1`: the last nonzero remainder and its coefficient. `fuel` bounds the passes;
the loop ends by its own test. -/
def euclid : (fuel : Nat) → (r0 r1 : Nat) → (t0 t1 : Int) → Nat × Int
  | 0, r0, _, t0, _ => (r0, t0)
  | fuel + 1, r0, r1, t0, t1 =>
    if r1 = 0 then (r0, t0)
    else euclid fuel r1 (r0 % r1) t1 (t0 - (r0 / r1 : Nat) * t1)

/-- `modinv(A, M) -> X or NoInverse` of R180, computed as R183 does. The remainders fall below `m`
and decrease, so `m` passes are enough; `t0 mod m` is the coefficient with `m` added until it is
nonnegative. -/
def modinvWide (N : Nat) (A M : Wide) : Option Wide :=
  let m := val M
  let g := euclid m m (val A % m) 0 1
  if g.1 = 1 then some (words N (g.2 % (m : Int)).toNat) else none

/-- MODMUL (R161). -/
def execModmul (rd rs1 rs2 rm : Reg) (s : State) : Answer :=
  .next <|
    if aliasesThree rd rs1 rs2 rm then raise .aliasError s
    else if isZero (s.reg rm) then raise .domainError s
    else complete plainStatus (s.setReg rd (modmulWide s.n (s.reg rs1) (s.reg rs2) (s.reg rm)))

/-- MODEXP (R171). -/
def execModexp (rd rs1 rs2 rm : Reg) (s : State) : Answer :=
  .next <|
    if aliasesThree rd rs1 rs2 rm then raise .aliasError s
    else if isZero (s.reg rm) then raise .domainError s
    else complete plainStatus (s.setReg rd (modexpWide s.n (s.reg rs1) (s.reg rs2) (s.reg rm)))

/-- MODINV (R181). -/
def execModinv (rd rs1 rm : Reg) (s : State) : Answer :=
  .next <|
    if aliasesTwo rd rs1 rm then raise .aliasError s
    else if isZero (s.reg rm) then raise .domainError s
    else
      match modinvWide s.n (s.reg rs1) (s.reg rm) with
      | none => raise .noInverseError s
      | some X => complete plainStatus (s.setReg rd X)

end Sys2Proof.Machine
end

