-- ==== Sys2Proof/Machine/Dispatch.lean ====
section
/-!
DEFINITION. `exec`: the completion of a decoded command, one arm per constructor of `Instr`.
-/
namespace Sys2Proof.Machine

/-- From decode on, the rest of a command: the in-place check, the modulus check, the computation
and the completion, in the order of R93. -/
def exec (i : Instr) (s : State) : Host.Outcome State Fault Refusal :=
  match i with
  | .add rd rs1 rs2 => Sys2Proof.Machine.execAdd rd rs1 rs2 s
  | .sub rd rs1 rs2 => Sys2Proof.Machine.execSub rd rs1 rs2 s
  | .muls rd rs1 imm => Sys2Proof.Machine.execMuls rd rs1 imm s
  | .shl rd rs1 imm => Sys2Proof.Machine.execShl rd rs1 imm s
  | .shr rd rs1 imm => Sys2Proof.Machine.execShr rd rs1 imm s
  | .bitlen rs1 => Sys2Proof.Machine.execBitlen rs1 s
  | .cmp rs1 rs2 => Sys2Proof.Machine.execCmp rs1 rs2 s
  | .reduce rd rs1 rm => Sys2Proof.Machine.execReduce rd rs1 rm s
  | .reducex rd rs1 rm => Sys2Proof.Machine.execReducex rd rs1 rm s
  | .modmul rd rs1 rs2 rm => Sys2Proof.Machine.execModmul rd rs1 rs2 rm s
  | .modexp rd rs1 rs2 rm => Sys2Proof.Machine.execModexp rd rs1 rs2 rm s
  | .modinv rd rs1 rm => Sys2Proof.Machine.execModinv rd rs1 rm s

end Sys2Proof.Machine
end

