-- ==== Sys2Proof/Machine/Engine.lean ====
section
/-!
DEFINITION. One step of the engine with its host: the completion of the command in flight, and
which of the host's actions is performed (R32, R57, R58, R230).
-/
namespace Sys2Proof.Machine

/-- The completion of the command in `CMD` (R93): decode, then either the decoded command or the
error completion with `IllegalCommand` (R204). -/
def runCommand (s : State) : Answer :=
  match decode s.cmd with
  | .ok i => exec i s
  | .error _ => .next (raise .illegalCommand s)

/-- The engine's own part of a step. IDLE does nothing (R32); BUSY completes the command when its
time is over, which always comes (R38, R241). -/
def engineTurn (s : State) : Answer :=
  if s.status.busy then
    if s.delay = 0 then runCommand s else .next { s with delay := s.delay - 1 }
  else .next s

/-- One step. The host's `rst` overrides everything (R230, R232). IDLE performs the access presented
(R57). BUSY performs only a read of STATUS, in a step before the completion's (R37, R58); every
other access is held, that is, stays first while the engine takes its turn. -/
def advance (s : State) : Answer :=
  match s.host with
  | [] => engineTurn s
  | .idle :: rest => engineTurn { s with host := rest }
  | .reset :: rest => .next (resetEngine { s with host := rest })
  | .read a :: rest =>
    if !s.status.busy then .next (performRead a { s with host := rest })
    else if a = 0x0002 ∧ s.delay ≠ 0 then
      .next (performRead a { s with host := rest, delay := s.delay - 1 })
    else engineTurn s
  | .write a v :: rest =>
    if s.status.busy then engineTurn s else .next (busWrite a v { s with host := rest })

end Sys2Proof.Machine
end

