-- ==== Sys2Proof/Machine/Step.lean ====
section
/-!
DEFINITION. The step, and how the host's tools place a command where the step takes its next one.
-/
namespace Sys2Proof.Machine

/-- One step of the machine: see `advance`. -/
def step (s : State) : Host.Outcome State Fault Refusal := advance s

/-- `s` with a command word accepted and due: the very next step runs it. It stands for the host's
`BusWrite(0x0001, w)` and the free time the command takes (assumption 6). -/
def State.withFetchWord (s : State) (nbits w : Nat) : State := placeCommand s nbits w

end Sys2Proof.Machine
end

