-- ==== Sys2Proof/Safety.lean ====
section
/-!
DEFINITION. The vocabulary of claims: the invariant every step keeps, which registers a command
names and which in-place uses are refused (R83, R88), when a command completes, and the reference
reading of the register bus in which each action takes its whole effect at once (R62).
-/
namespace Sys2Proof.Machine

/-- What holds of the machine after reset and after every step: `N` in its range (R6), every wide
register an `N`-word vector (R20), LEN in `[0, 64 N]` (R24), CMP never `0b10` (R26), ERR one of the
codes a command can raise (R200, R203), and no flag beside an error code (R206). -/
structure State.Inv (s : State) : Prop where
  n_pos : 1 ≤ s.n
  n_le : s.n ≤ 256
  reg_length : ∀ i : Reg, (s.reg i).length = s.n
  len_le : s.len.toNat ≤ 64 * s.n
  cmp_legal : s.status.cmp ≠ 0b10
  err_legal : s.status.err = 0 ∨ s.status.err = 1 ∨ s.status.err = 2 ∨ s.status.err = 5
    ∨ s.status.err = 6
  err_alone : s.status.err ≠ 0 →
    s.status.carry = false ∧ s.status.borrow = false ∧ s.status.ovf = false ∧ s.status.cmp = 0

/-- The wide register a command writes at normal completion (R83). -/
def dest (i : Instr) : Option Reg :=
  match i with
  | .add rd _ _ => some rd
  | .sub rd _ _ => some rd
  | .muls rd _ _ => some rd
  | .shl rd _ _ => some rd
  | .shr rd _ _ => some rd
  | .bitlen _ => none
  | .cmp _ _ => none
  | .reduce rd _ _ => some rd
  | .reducex rd _ _ => some rd
  | .modmul rd _ _ _ => some rd
  | .modexp rd _ _ _ => some rd
  | .modinv rd _ _ => some rd

/-- The wide registers a command reads at acceptance (R35, R83). -/
def sources (i : Instr) : List Reg :=
  match i with
  | .add _ rs1 rs2 => [rs1, rs2]
  | .sub _ rs1 rs2 => [rs1, rs2]
  | .muls _ rs1 _ => [rs1]
  | .shl _ rs1 _ => [rs1]
  | .shr _ rs1 _ => [rs1]
  | .bitlen rs1 => [rs1]
  | .cmp rs1 rs2 => [rs1, rs2]
  | .reduce _ rs1 rm => [rs1, rm]
  | .reducex _ rs1 rm => [rs1, rm]
  | .modmul _ rs1 rs2 rm => [rs1, rs2, rm]
  | .modexp _ rs1 rs2 rm => [rs1, rs2, rm]
  | .modinv _ rs1 rm => [rs1, rm]

/-- The modulus register of the five commands that check it (R201). -/
def modulus (i : Instr) : Option Reg :=
  match i with
  | .add _ _ _ => none
  | .sub _ _ _ => none
  | .muls _ _ _ => none
  | .shl _ _ _ => none
  | .shr _ _ _ => none
  | .bitlen _ => none
  | .cmp _ _ => none
  | .reduce _ _ rm => some rm
  | .reducex _ _ rm => some rm
  | .modmul _ _ _ rm => some rm
  | .modexp _ _ _ rm => some rm
  | .modinv _ _ rm => some rm

/-- In-place use is allowed for the two shifts only (R88). -/
def allowsInPlace (i : Instr) : Bool :=
  match i with
  | .shl _ _ _ => true
  | .shr _ _ _ => true
  | .add _ _ _ => false
  | .sub _ _ _ => false
  | .muls _ _ _ => false
  | .bitlen _ => false
  | .cmp _ _ => false
  | .reduce _ _ _ => false
  | .reducex _ _ _ => false
  | .modmul _ _ _ _ => false
  | .modexp _ _ _ _ => false
  | .modinv _ _ _ => false

/-- A forbidden equality of R88: the destination is also a source, and the command is no shift. -/
def ForbiddenInPlace (i : Instr) : Prop :=
  allowsInPlace i = false ∧ ∃ rd, dest i = some rd ∧ rd ∈ sources i

/-- `rst` is not sampled in the coming step. -/
abbrev State.NoReset (s : State) : Prop := s.host.head? ≠ some .reset

/-- The state as the engine's own turn finds it: an idle step of the host is over, anything else the
host presents stays presented. -/
def State.atTurn (s : State) : State :=
  match s.host with
  | .idle :: rest => { s with host := rest }
  | [] => s
  | .read _ :: _ => s
  | .write _ _ :: _ => s
  | .reset :: _ => s

/-- The coming step is the completion of the command in flight. -/
structure State.Due (s : State) : Prop where
  busy : s.status.busy = true
  delay : s.delay = 0
  noReset : s.NoReset

/-- Acceptance and completion of a command word in one (R39). -/
def wholeCommand (c : Word) (s : State) : State :=
  match runCommand { accept c s with delay := 0 } with
  | .next t => t
  | .fault _ => s
  | .refused _ => s

/-- The whole effect of one action of the host, taken at once (R62). -/
def wholeAction (s : State) (a : HostAction) : State :=
  match a with
  | .idle => s
  | .read a => performRead a s
  | .write a v => if a = 0x0001 then wholeCommand v s else busWrite a v s
  | .reset => resetEngine s

/-- The host's actions one after the other, each with its whole effect (R62). -/
def inOrder (s : State) (acts : List HostAction) : State := acts.foldl wholeAction s

end Sys2Proof.Machine
end

