-- ==== Sys2Proof/Certificates/Slice0/Obligations.lean ====
section
/-!
DEFINITION. The statements for the provers. Each docstring names the rule of the spec it formalises.
-/
open Sys2Proof Sys2Proof.Machine

namespace Sys2Proof.Statements

/-- `c[hi:lo]` of a command word (R8, R81). -/
def field (c : Word) (hi lo : Nat) : Nat := c.toNat / 2 ^ lo % 2 ^ (hi - lo + 1)

/-- The register number in the four bits of `c` from bit `lo` up (R81). -/
def regField (c : Word) (lo : Nat) : Reg := Fin.ofNat 16 (c.toNat / 2 ^ lo)

/-- A command's encoding: a word with opcode `op` is the command `i` where the fields unused by its
format are zero, and no command where they are not (R82, R86). -/
def Encoding (op : Nat) (unusedAreZero : Word → Prop) (i : Word → Instr) : Prop :=
  ∀ c : Word, field c 7 0 = op →
    (unusedAreZero c → decode c = .ok (i c)) ∧ (¬ unusedAreZero c → ∃ e, decode c = .error e)

/-- STATUS after a normal completion with these flags (R27, R36). -/
def done (carry borrow ovf : Bool) (cmp : BitVec 2) : Status :=
  { busy := false, carry := carry, borrow := borrow, ovf := ovf, cmp := cmp, err := 0 }

/-- An error completion with this code: nothing but STATUS changes (R206). -/
def failed (code : BitVec 4) (s : State) : State :=
  { s with status :=
      { busy := false, carry := false, borrow := false, ovf := false, cmp := 0, err := code } }

/-- A normal completion that writes one wide register and no flag (R36). -/
def wrote (rd : Reg) (X : Wide) (s : State) : State :=
  { s with regs := s.regs.set rd X, status := done false false false 0 }

/-- The addresses of R54 that name no register. -/
def Unmapped (n : Nat) (a : Addr) : Prop :=
  (0x0005 ≤ a.toNat ∧ a.toNat ≤ 0x0FFF) ∨
  (0x1000 ≤ a.toNat ∧ a.toNat ≤ 0x1FFF ∧ n ≤ a.toNat % 256) ∨
  0x2000 ≤ a.toNat

/-- `a` is the address of word `j` of wide register `i` (R53). -/
def InWindow (n : Nat) (a : Addr) (i : Reg) (j : Nat) : Prop :=
  j < n ∧ a.toNat = 0x1000 + 256 * i.val + j

/-- `v` is what the register map shows at `a` (R28, R52, R53, R54). -/
structure ReadsAs (s : State) (a : Addr) (v : Word) : Prop where
  config : a = 0x0000 → v.toNat = s.n + 16 * 2 ^ 16 + 64 * 2 ^ 24
  cmd : a = 0x0001 → v = s.cmd
  status : a = 0x0002 → v = statusWord s.status
  xw : a = 0x0003 → v = s.xw
  len : a = 0x0004 → v = s.len
  window : ∀ i j, InWindow s.n a i j → (s.reg i)[j]? = some v
  unmapped : Unmapped s.n a → v = 0

end Sys2Proof.Statements

open Sys2Proof.Statements

/-! ## The command word -/

/-- R86. -/
def Obligations.DecodeEncodeRoundTrip : Prop :=
  (∀ i : Instr, i.WellFormed → decode (encode i) = .ok i) ∧
  (∀ (c : Word) (i : Instr), decode c = .ok i → i.WellFormed ∧ encode i = c) ∧
  (∀ row ∈ opcodeTable, ∀ c : Word, c &&& 0xFF = row.pattern → c &&& row.mask ≠ row.pattern →
    ∃ e, decode c = .error e)

/-- R84. -/
def Obligations.OpcodeTableIsTheDecoder : Prop :=
  (∀ c : Word,
    (c &&& 0xFFFFFFFFFFF000FF = 0x01 ↔
      decode c = .ok (.add (regField c 8) (regField c 12) (regField c 16))) ∧
    (c &&& 0xFFFFFFFFFFF000FF = 0x02 ↔
      decode c = .ok (.sub (regField c 8) (regField c 12) (regField c 16))) ∧
    (c &&& 0x00000000FFFF00FF = 0x03 ↔
      decode c = .ok (.muls (regField c 8) (regField c 12) (field c 63 32))) ∧
    (c &&& 0x00000000FFFF00FF = 0x04 ↔
      decode c = .ok (.shl (regField c 8) (regField c 12) (field c 63 32))) ∧
    (c &&& 0x00000000FFFF00FF = 0x05 ↔
      decode c = .ok (.shr (regField c 8) (regField c 12) (field c 63 32))) ∧
    (c &&& 0xFFFFFFFFFFFF0FFF = 0x06 ↔ decode c = .ok (.bitlen (regField c 12))) ∧
    (c &&& 0xFFFFFFFFFFF00FFF = 0x07 ↔
      decode c = .ok (.cmp (regField c 12) (regField c 16))) ∧
    (c &&& 0xFFFFFFFFFF0F00FF = 0x08 ↔
      decode c = .ok (.reduce (regField c 8) (regField c 12) (regField c 20))) ∧
    (c &&& 0xFFFFFFFFFF0F00FF = 0x09 ↔
      decode c = .ok (.reducex (regField c 8) (regField c 12) (regField c 20))) ∧
    (c &&& 0xFFFFFFFFFF0000FF = 0x0A ↔
      decode c = .ok (.modmul (regField c 8) (regField c 12) (regField c 16) (regField c 20))) ∧
    (c &&& 0xFFFFFFFFFF0000FF = 0x0B ↔
      decode c = .ok (.modexp (regField c 8) (regField c 12) (regField c 16) (regField c 20))) ∧
    (c &&& 0xFFFFFFFFFF0F00FF = 0x0C ↔
      decode c = .ok (.modinv (regField c 8) (regField c 12) (regField c 20)))) ∧
  (∀ c : Word, ∀ r₁ ∈ opcodeTable, ∀ r₂ ∈ opcodeTable,
    c &&& r₁.mask = r₁.pattern → c &&& r₂.mask = r₂.pattern → r₁ = r₂)

/-- R87. -/
def Obligations.EncodingIsTheFieldSum : Prop :=
  (∀ rd rs1 rs2 : Reg,
    (encode (.add rd rs1 rs2)).toNat = 0x01 + rd.val * 2 ^ 8 + rs1.val * 2 ^ 12 + rs2.val * 2 ^ 16 ∧
    (encode (.sub rd rs1 rs2)).toNat = 0x02 + rd.val * 2 ^ 8 + rs1.val * 2 ^ 12 + rs2.val * 2 ^ 16) ∧
  (∀ (rd rs1 : Reg) (imm : Nat), imm < 2 ^ 32 →
    (encode (.muls rd rs1 imm)).toNat = 0x03 + rd.val * 2 ^ 8 + rs1.val * 2 ^ 12 + imm * 2 ^ 32 ∧
    (encode (.shl rd rs1 imm)).toNat = 0x04 + rd.val * 2 ^ 8 + rs1.val * 2 ^ 12 + imm * 2 ^ 32 ∧
    (encode (.shr rd rs1 imm)).toNat = 0x05 + rd.val * 2 ^ 8 + rs1.val * 2 ^ 12 + imm * 2 ^ 32) ∧
  (∀ rs1 rs2 : Reg,
    (encode (.bitlen rs1)).toNat = 0x06 + rs1.val * 2 ^ 12 ∧
    (encode (.cmp rs1 rs2)).toNat = 0x07 + rs1.val * 2 ^ 12 + rs2.val * 2 ^ 16) ∧
  (∀ rd rs1 rm : Reg,
    (encode (.reduce rd rs1 rm)).toNat = 0x08 + rd.val * 2 ^ 8 + rs1.val * 2 ^ 12 + rm.val * 2 ^ 20 ∧
    (encode (.reducex rd rs1 rm)).toNat = 0x09 + rd.val * 2 ^ 8 + rs1.val * 2 ^ 12 + rm.val * 2 ^ 20 ∧
    (encode (.modinv rd rs1 rm)).toNat = 0x0C + rd.val * 2 ^ 8 + rs1.val * 2 ^ 12 + rm.val * 2 ^ 20) ∧
  (∀ rd rs1 rs2 rm : Reg,
    (encode (.modmul rd rs1 rs2 rm)).toNat =
      0x0A + rd.val * 2 ^ 8 + rs1.val * 2 ^ 12 + rs2.val * 2 ^ 16 + rm.val * 2 ^ 20 ∧
    (encode (.modexp rd rs1 rs2 rm)).toNat =
      0x0B + rd.val * 2 ^ 8 + rs1.val * 2 ^ 12 + rs2.val * 2 ^ 16 + rm.val * 2 ^ 20) ∧
  encode (.add 3 1 2) = 0x0000000000021301 ∧
  encode (.shl 2 2 65) = 0x0000004100002204 ∧
  encode (.modexp 4 1 2 15) = 0x0000000000F2140B

/-- Words the spec writes out, one for each format and each special case, decode to the commands
they stand for (a sanity statement; the words are those of the spec's 95). -/
def Obligations.SpecWordsDecode : Prop :=
  decode 0x0000000000021301 = .ok (.add 3 1 2) ∧
  decode 0xDEADBEEF00001203 = .ok (.muls 2 1 0xDEADBEEF) ∧
  decode 0x0000004100002204 = .ok (.shl 2 2 65) ∧
  decode 0x0000000000005006 = .ok (.bitlen 5) ∧
  decode 0x0000000000021007 = .ok (.cmp 1 2) ∧
  decode 0x0000000000F01209 = .ok (.reducex 2 1 15) ∧
  decode 0x0000000000F2130A = .ok (.modmul 3 1 2 15) ∧
  decode 0x0000000000F0120C = .ok (.modinv 2 1 15) ∧
  decode 0x0000000000000000 = .error .unassignedOpcode ∧
  decode 0x0000000001021301 = .error .nonzeroUnusedField

/-- R89, R204: which words are illegal, and that completing one changes nothing but STATUS, which
gets code 5. -/
def Obligations.IllegalWordsOnlyFail : Prop :=
  (∀ c : Word, field c 7 0 = 0 ∨ 0x0D ≤ field c 7 0 → ∃ e, decode c = .error e) ∧
  (∀ row ∈ opcodeTable, ∀ c : Word, c &&& 0xFF = row.pattern → c &&& row.mask ≠ row.pattern →
    ∃ e, decode c = .error e) ∧
  (∃ e, decode 0 = .error e) ∧
  (∀ (s : State) (e : Illegal), s.Due → decode s.cmd = .error e →
    step s = .next (failed 5 s.atTurn))

/-! ## The commands: result, flags, errors and frame of each -/

/-- R112. -/
def Obligations.AddCommand : Prop :=
  Encoding 0x01 (fun c => field c 63 20 = 0)
    (fun c => .add (regField c 8) (regField c 12) (regField c 16)) ∧
  ∀ (s : State) (rd rs1 rs2 : Reg), s.Inv →
    (rd = rs1 ∨ rd = rs2 → exec (.add rd rs1 rs2) s = .next (failed 6 s)) ∧
    (rd ≠ rs1 ∧ rd ≠ rs2 → ∃ (S : Wide) (carry : Bool),
      S.length = s.n ∧
      val S = (val (s.reg rs1) + val (s.reg rs2)) % 2 ^ (64 * s.n) ∧
      (carry = true ↔ 2 ^ (64 * s.n) ≤ val (s.reg rs1) + val (s.reg rs2)) ∧
      exec (.add rd rs1 rs2) s =
        .next { s with regs := s.regs.set rd S, status := done carry false false 0 })

/-- R113. -/
def Obligations.SubCommand : Prop :=
  Encoding 0x02 (fun c => field c 63 20 = 0)
    (fun c => .sub (regField c 8) (regField c 12) (regField c 16)) ∧
  ∀ (s : State) (rd rs1 rs2 : Reg), s.Inv →
    (rd = rs1 ∨ rd = rs2 → exec (.sub rd rs1 rs2) s = .next (failed 6 s)) ∧
    (rd ≠ rs1 ∧ rd ≠ rs2 → ∃ (D : Wide) (borrow : Bool),
      D.length = s.n ∧
      (val D : Int) = ((val (s.reg rs1) : Int) - val (s.reg rs2)) % 2 ^ (64 * s.n) ∧
      (borrow = true ↔ val (s.reg rs1) < val (s.reg rs2)) ∧
      exec (.sub rd rs1 rs2) s =
        .next { s with regs := s.regs.set rd D, status := done false borrow false 0 })

/-- R122. -/
def Obligations.MulsCommand : Prop :=
  Encoding 0x03 (fun c => field c 31 16 = 0)
    (fun c => .muls (regField c 8) (regField c 12) (field c 63 32)) ∧
  ∀ (s : State) (rd rs1 : Reg) (imm : Nat), s.Inv → imm < 2 ^ 32 →
    (rd = rs1 → exec (.muls rd rs1 imm) s = .next (failed 6 s)) ∧
    (rd ≠ rs1 → ∃ (P : Wide) (top : Word) (ovf : Bool),
      P.length = s.n ∧
      val P + top.toNat * 2 ^ (64 * s.n) = val (s.reg rs1) * imm ∧
      (ovf = true ↔ top ≠ 0) ∧
      (ovf = true ↔ 2 ^ (64 * s.n) ≤ val (s.reg rs1) * imm) ∧
      exec (.muls rd rs1 imm) s =
        .next { s with regs := s.regs.set rd P, xw := top, status := done false false ovf 0 })

/-- R133: in-place use included. -/
def Obligations.ShlCommand : Prop :=
  Encoding 0x04 (fun c => field c 31 16 = 0)
    (fun c => .shl (regField c 8) (regField c 12) (field c 63 32)) ∧
  ∀ (s : State) (rd rs1 : Reg) (imm : Nat), s.Inv →
    ∃ (S : Wide) (lost : Bool),
      S.length = s.n ∧
      val S = val (s.reg rs1) * 2 ^ imm % 2 ^ (64 * s.n) ∧
      (lost = true ↔ 2 ^ (64 * s.n) ≤ val (s.reg rs1) * 2 ^ imm) ∧
      exec (.shl rd rs1 imm) s =
        .next { s with regs := s.regs.set rd S, status := done false false lost 0 }

/-- R134: in-place use included. -/
def Obligations.ShrCommand : Prop :=
  Encoding 0x05 (fun c => field c 31 16 = 0)
    (fun c => .shr (regField c 8) (regField c 12) (field c 63 32)) ∧
  ∀ (s : State) (rd rs1 : Reg) (imm : Nat), s.Inv →
    ∃ S : Wide, S.length = s.n ∧ val S = val (s.reg rs1) / 2 ^ imm ∧
      exec (.shr rd rs1 imm) s = .next (wrote rd S s)

/-- R143. -/
def Obligations.BitlenCommand : Prop :=
  Encoding 0x06 (fun c => field c 11 8 = 0 ∧ field c 63 16 = 0) (fun c => .bitlen (regField c 12)) ∧
  ∀ (s : State) (rs1 : Reg), s.Inv →
    ∃ n : Word, n.toNat ≤ 64 * s.n ∧
      (val (s.reg rs1) = 0 → n = 0) ∧
      (val (s.reg rs1) ≠ 0 →
        1 ≤ n.toNat ∧ 2 ^ (n.toNat - 1) ≤ val (s.reg rs1) ∧ val (s.reg rs1) < 2 ^ n.toNat) ∧
      exec (.bitlen rs1) s = .next { s with len := n, status := done false false false 0 }

/-- R144. -/
def Obligations.CmpCommand : Prop :=
  Encoding 0x07 (fun c => field c 11 8 = 0 ∧ field c 63 20 = 0)
    (fun c => .cmp (regField c 12) (regField c 16)) ∧
  ∀ (s : State) (rs1 rs2 : Reg), s.Inv →
    (val (s.reg rs1) = val (s.reg rs2) →
      exec (.cmp rs1 rs2) s = .next { s with status := done false false false 0b00 }) ∧
    (val (s.reg rs2) < val (s.reg rs1) →
      exec (.cmp rs1 rs2) s = .next { s with status := done false false false 0b01 }) ∧
    (val (s.reg rs1) < val (s.reg rs2) →
      exec (.cmp rs1 rs2) s = .next { s with status := done false false false 0b11 })

/-- R152. -/
def Obligations.ReduceCommand : Prop :=
  Encoding 0x08 (fun c => field c 19 16 = 0 ∧ field c 63 24 = 0)
    (fun c => .reduce (regField c 8) (regField c 12) (regField c 20)) ∧
  ∀ (s : State) (rd rs1 rm : Reg), s.Inv →
    (rd = rs1 ∨ rd = rm → exec (.reduce rd rs1 rm) s = .next (failed 6 s)) ∧
    (rd ≠ rs1 ∧ rd ≠ rm → val (s.reg rm) = 0 → exec (.reduce rd rs1 rm) s = .next (failed 1 s)) ∧
    (rd ≠ rs1 ∧ rd ≠ rm → val (s.reg rm) ≠ 0 → ∃ X : Wide, X.length = s.n ∧
      val X = val (s.reg rs1) % val (s.reg rm) ∧
      exec (.reduce rd rs1 rm) s = .next (wrote rd X s))

/-- R153. -/
def Obligations.ReducexCommand : Prop :=
  Encoding 0x09 (fun c => field c 19 16 = 0 ∧ field c 63 24 = 0)
    (fun c => .reducex (regField c 8) (regField c 12) (regField c 20)) ∧
  ∀ (s : State) (rd rs1 rm : Reg), s.Inv →
    (rd = rs1 ∨ rd = rm → exec (.reducex rd rs1 rm) s = .next (failed 6 s)) ∧
    (rd ≠ rs1 ∧ rd ≠ rm → val (s.reg rm) = 0 → exec (.reducex rd rs1 rm) s = .next (failed 1 s)) ∧
    (rd ≠ rs1 ∧ rd ≠ rm → val (s.reg rm) ≠ 0 → ∃ X : Wide, X.length = s.n ∧
      val X = (s.xw.toNat * 2 ^ (64 * s.n) + val (s.reg rs1)) % val (s.reg rm) ∧
      exec (.reducex rd rs1 rm) s = .next (wrote rd X s))

/-- R161, and the value of R162. -/
def Obligations.ModmulCommand : Prop :=
  Encoding 0x0A (fun c => field c 63 24 = 0)
    (fun c => .modmul (regField c 8) (regField c 12) (regField c 16) (regField c 20)) ∧
  ∀ (s : State) (rd rs1 rs2 rm : Reg), s.Inv →
    (rd = rs1 ∨ rd = rs2 ∨ rd = rm → exec (.modmul rd rs1 rs2 rm) s = .next (failed 6 s)) ∧
    (rd ≠ rs1 ∧ rd ≠ rs2 ∧ rd ≠ rm → val (s.reg rm) = 0 →
      exec (.modmul rd rs1 rs2 rm) s = .next (failed 1 s)) ∧
    (rd ≠ rs1 ∧ rd ≠ rs2 ∧ rd ≠ rm → val (s.reg rm) ≠ 0 → ∃ X : Wide, X.length = s.n ∧
      val X = val (s.reg rs1) * val (s.reg rs2) % val (s.reg rm) ∧
      exec (.modmul rd rs1 rs2 rm) s = .next (wrote rd X s))

/-- R171, and the value of R172: exponent 0 gives 1 whatever the base and the modulus. -/
def Obligations.ModexpCommand : Prop :=
  Encoding 0x0B (fun c => field c 63 24 = 0)
    (fun c => .modexp (regField c 8) (regField c 12) (regField c 16) (regField c 20)) ∧
  ∀ (s : State) (rd rs1 rs2 rm : Reg), s.Inv →
    (rd = rs1 ∨ rd = rs2 ∨ rd = rm → exec (.modexp rd rs1 rs2 rm) s = .next (failed 6 s)) ∧
    (rd ≠ rs1 ∧ rd ≠ rs2 ∧ rd ≠ rm → val (s.reg rm) = 0 →
      exec (.modexp rd rs1 rs2 rm) s = .next (failed 1 s)) ∧
    (rd ≠ rs1 ∧ rd ≠ rs2 ∧ rd ≠ rm → val (s.reg rm) ≠ 0 → ∃ X : Wide, X.length = s.n ∧
      (val (s.reg rs2) = 0 → val X = 1) ∧
      (val (s.reg rs2) ≠ 0 → val X = val (s.reg rs1) ^ val (s.reg rs2) % val (s.reg rm)) ∧
      exec (.modexp rd rs1 rs2 rm) s = .next (wrote rd X s))

/-- R181, and the value of R180. -/
def Obligations.ModinvCommand : Prop :=
  Encoding 0x0C (fun c => field c 19 16 = 0 ∧ field c 63 24 = 0)
    (fun c => .modinv (regField c 8) (regField c 12) (regField c 20)) ∧
  ∀ (s : State) (rd rs1 rm : Reg), s.Inv →
    (rd = rs1 ∨ rd = rm → exec (.modinv rd rs1 rm) s = .next (failed 6 s)) ∧
    (rd ≠ rs1 ∧ rd ≠ rm → val (s.reg rm) = 0 → exec (.modinv rd rs1 rm) s = .next (failed 1 s)) ∧
    (rd ≠ rs1 ∧ rd ≠ rm → val (s.reg rm) ≠ 0 → Nat.gcd (val (s.reg rs1)) (val (s.reg rm)) ≠ 1 →
      exec (.modinv rd rs1 rm) s = .next (failed 2 s)) ∧
    (rd ≠ rs1 ∧ rd ≠ rm → val (s.reg rm) ≠ 0 → Nat.gcd (val (s.reg rs1)) (val (s.reg rm)) = 1 →
      ∃ X : Wide, X.length = s.n ∧ val X < val (s.reg rm) ∧
        val (s.reg rs1) * val X % val (s.reg rm) = 1 % val (s.reg rm) ∧
        exec (.modinv rd rs1 rm) s = .next (wrote rd X s))

/-! ## The functions of the rules, at every length -/

/-- R114. -/
def Obligations.AddSubValues : Prop :=
  ∀ A B : Wide, A.length = B.length →
    (addWide A B).1.length = A.length ∧
    val (addWide A B).1 + (addWide A B).2 * 2 ^ (64 * A.length) = val A + val B ∧
    val (addWide A B).1 = (val A + val B) % 2 ^ (64 * A.length) ∧
    ((addWide A B).2 = 1 ↔ 2 ^ (64 * A.length) ≤ val A + val B) ∧
    (subWide A B).1.length = A.length ∧
    (val (subWide A B).1 : Int) = val A - val B + (subWide A B).2 * 2 ^ (64 * A.length) ∧
    (val (subWide A B).1 : Int) = ((val A : Int) - val B) % 2 ^ (64 * A.length) ∧
    ((subWide A B).2 = 1 ↔ val A < val B)

/-- R121. -/
def Obligations.ScalarProductIsExact : Prop :=
  ∀ (A : Wide) (s : Nat), s < 2 ^ 32 →
    (mulsWide A s).length = A.length + 1 ∧
    val (mulsWide A s) = val A * s ∧
    (wordAt (mulsWide A s) A.length).toNat ≤ 2 ^ 32 - 2

/-- R132. -/
def Obligations.ShiftValues : Prop :=
  ∀ (A : Wide) (k : Nat),
    (shlWide A k).1.length = A.length ∧
    val (shlWide A k).1 = val A * 2 ^ k % 2 ^ (64 * A.length) ∧
    ((shlWide A k).2 = true ↔ 2 ^ (64 * A.length) ≤ val A * 2 ^ k) ∧
    (shrWide A k).length = A.length ∧
    val (shrWide A k) = val A / 2 ^ k ∧
    (64 * A.length ≤ k →
      val (shlWide A k).1 = 0 ∧ val (shrWide A k) = 0 ∧ ((shlWide A k).2 = true ↔ val A ≠ 0))

/-- R142. -/
def Obligations.BitLengthAndOrderValues : Prop :=
  (∀ A : Wide,
    (val A = 0 → bitlen A = 0) ∧
    (val A ≠ 0 → ∀ n, bitlen A = n ↔ 1 ≤ n ∧ 2 ^ (n - 1) ≤ val A ∧ val A < 2 ^ n)) ∧
  (∀ A B : Wide, A.length = B.length →
    (cmpWide A B = -1 ↔ val A < val B) ∧
    (cmpWide A B = 0 ↔ val A = val B) ∧
    (cmpWide A B = 1 ↔ val B < val A))

/-- R151: any dividend at least as long as the modulus. -/
def Obligations.ReductionIsRemainder : Prop :=
  ∀ (N : Nat) (A M : Wide), M.length = N → N ≤ A.length → 0 < val M →
    (reduceWide N A M).length = N ∧
    val (reduceWide N A M) = val A % val M ∧
    val (reduceWide N A M) < val M

/-- The two laws of R154 on results: the dividend's length does not matter beyond its value, and
reducing twice is reducing once. (The step counts of R154 are not stated.) -/
def Obligations.ReductionLaws : Prop :=
  ∀ (N L : Nat) (A M : Wide), M.length = N → N ≤ A.length → A.length < L → 0 < val M →
    reduceWide N (zext L A) M = reduceWide N A M ∧
    reduceWide N (reduceWide N A M) M = reduceWide N A M

/-- R145. -/
def Obligations.CompareLaws : Prop :=
  (∀ A : Wide, cmpWide A A = 0) ∧
  (∀ L : Nat, bitlen (List.replicate L 0) = 0) ∧
  (∀ A B : Wide, A.length = B.length →
    cmpWide A B = -cmpWide B A ∧
    (0 ≤ cmpWide A B ↔ (subWide A B).2 = 0) ∧
    (bitlen A < bitlen B → cmpWide A B = -1))

/-! ## Laws across two commands -/

/-- R115: the subtraction undoes the addition, and borrows exactly when the addition carried. -/
def Obligations.SubUndoesAdd : Prop :=
  ∀ (s : State) (rd rs1 rs2 rd' : Reg), s.Inv → rd ≠ rs1 → rd ≠ rs2 → rd' ≠ rd → rd' ≠ rs2 →
    ∃ t u : State, exec (.add rd rs1 rs2) s = .next t ∧ exec (.sub rd' rd rs2) t = .next u ∧
      u.reg rd' = s.reg rs1 ∧ u.status.borrow = t.status.carry

/-- R135. -/
def Obligations.ShiftRoundTrips : Prop :=
  ∀ (s : State) (rd rs1 rd' : Reg) (k : Nat), s.Inv →
    (∃ t u : State, exec (.shl rd rs1 k) s = .next t ∧ exec (.shr rd' rd k) t = .next u ∧
      (t.status.ovf = false → u.reg rd' = s.reg rs1) ∧
      (t.status.ovf = true → k < 64 * s.n →
        val (u.reg rd') = val (s.reg rs1) % 2 ^ (64 * s.n - k)) ∧
      (t.status.ovf = true → 64 * s.n ≤ k → val (u.reg rd') = 0)) ∧
    (∃ t u : State, exec (.shr rd rs1 k) s = .next t ∧ exec (.shl rd' rd k) t = .next u ∧
      val (u.reg rd') = val (s.reg rs1) - val (s.reg rs1) % 2 ^ k)

/-- R182. -/
def Obligations.InverseTimesValueIsOne : Prop :=
  ∀ (s t : State) (rd rs1 rm rd' : Reg), s.Inv →
    exec (.modinv rd rs1 rm) s = .next t → t.status.err = 0 →
    rd' ≠ rs1 → rd' ≠ rd → rd' ≠ rm →
    ∃ u : State, exec (.modmul rd' rs1 rd rm) t = .next u ∧
      (1 < val (s.reg rm) → val (u.reg rd') = 1) ∧ (val (s.reg rm) = 1 → val (u.reg rd') = 0)

/-- MULS then REDUCEX is multiplication by a scalar modulo `R[rm]` (R122 and R153, the use R153's
last sentences describe). -/
def Obligations.MulsThenReducexIsScalarModmul : Prop :=
  ∀ (s : State) (rd rs1 rm rd' : Reg) (imm : Nat), s.Inv → imm < 2 ^ 32 →
    rd ≠ rs1 → rd ≠ rm → rd' ≠ rd → rd' ≠ rm → val (s.reg rm) ≠ 0 →
    ∃ t u : State, exec (.muls rd rs1 imm) s = .next t ∧ exec (.reducex rd' rd rm) t = .next u ∧
      val (u.reg rd') = val (s.reg rs1) * imm % val (s.reg rm)

/-! ## Errors, flags and what a command may touch -/

/-- R93, R208: the checks and their order. -/
def Obligations.ErrorPriority : Prop :=
  ∀ s t : State, s.Inv → s.Due → step s = .next t →
    (∀ e, decode s.cmd = .error e → t.status.err = 5) ∧
    (∀ i, decode s.cmd = .ok i →
      (ForbiddenInPlace i → t.status.err = 6) ∧
      (¬ ForbiddenInPlace i →
        (modulus i = none → t.status.err = 0) ∧
        (∀ rm, modulus i = some rm →
          (val (s.reg rm) = 0 → t.status.err = 1) ∧
          (val (s.reg rm) ≠ 0 →
            (∀ rd rs1, i = .modinv rd rs1 rm →
              (Nat.gcd (val (s.reg rs1)) (val (s.reg rm)) ≠ 1 → t.status.err = 2) ∧
              (Nat.gcd (val (s.reg rs1)) (val (s.reg rm)) = 1 → t.status.err = 0)) ∧
            ((∀ rd rs1, i ≠ .modinv rd rs1 rm) → t.status.err = 0)))))

/-- R206: a completion that reports an error changes STATUS alone, clears every flag and leaves the
engine IDLE. -/
def Obligations.ErrorCompletionChangesStatusOnly : Prop :=
  ∀ s t : State, s.Due → step s = .next t → t.status.err ≠ 0 →
    t = { s.atTurn with status :=
      { busy := false, carry := false, borrow := false, ovf := false, cmp := 0,
        err := t.status.err } }

/-- R210: no register content and no immediate makes a primitive raise; only ADD, SUB and MULS can
report an error, and only `AliasError`. -/
def Obligations.PrimitivesNeverRaiseOnValues : Prop :=
  ∀ (s : State) (rd rs1 rs2 : Reg) (imm : Nat),
    (∀ i ∈ [Instr.shl rd rs1 imm, .shr rd rs1 imm, .bitlen rs1, .cmp rs1 rs2],
      ∃ t, exec i s = .next t ∧ t.status.err = 0) ∧
    (∀ i ∈ [Instr.add rd rs1 rs2, .sub rd rs1 rs2, .muls rd rs1 imm],
      ∃ t, exec i s = .next t ∧
        (ForbiddenInPlace i → t.status.err = 6) ∧ (¬ ForbiddenInPlace i → t.status.err = 0))

/-- R27: a completion writes all five result fields whatever STATUS held, and no command reads
STATUS; a flag is set by its own command's normal completion only, and an error completion sets
none; between completions (and resets) the five fields keep their values; BUSY is set by acceptance
and cleared by completion. -/
def Obligations.StatusDescribesTheLastCompletion : Prop :=
  (∀ (s : State) (q : Status), runCommand { s with status := q } = runCommand s) ∧
  (∀ (i : Instr) (s t : State), exec i s = .next t →
    t.status.busy = false ∧
    (t.status.carry = true → t.status.err = 0 ∧ ∃ rd rs1 rs2, i = .add rd rs1 rs2) ∧
    (t.status.borrow = true → t.status.err = 0 ∧ ∃ rd rs1 rs2, i = .sub rd rs1 rs2) ∧
    (t.status.ovf = true → t.status.err = 0 ∧
      ((∃ rd rs1 imm, i = .muls rd rs1 imm) ∨ ∃ rd rs1 imm, i = .shl rd rs1 imm)) ∧
    (t.status.cmp ≠ 0 → t.status.err = 0 ∧ ∃ rs1 rs2, i = .cmp rs1 rs2)) ∧
  (∀ s t : State, step s = .next t → ¬ s.Due → s.NoReset →
    t.status.carry = s.status.carry ∧ t.status.borrow = s.status.borrow ∧
    t.status.ovf = s.status.ovf ∧ t.status.cmp = s.status.cmp ∧ t.status.err = s.status.err) ∧
  (∀ s t : State, step s = .next t → s.NoReset →
    (t.status.busy = true ↔
      (s.status.busy = true ∧ ¬ s.Due) ∨
      (s.status.busy = false ∧ ∃ c rest, s.host = .write 0x0001 c :: rest)))

/-- R35 ("The command's result is a function of these copies only"): two states that agree on `N`, on
the command's source registers and, for REDUCEX, on XW, complete it with the same STATUS and the
same results. -/
def Obligations.ResultDependsOnOperandsOnly : Prop :=
  ∀ (i : Instr) (s₁ s₂ t₁ t₂ : State), s₁.n = s₂.n →
    (∀ r ∈ sources i, s₁.reg r = s₂.reg r) →
    ((∃ rd rs1 rm, i = .reducex rd rs1 rm) → s₁.xw = s₂.xw) →
    exec i s₁ = .next t₁ → exec i s₂ = .next t₂ →
    t₁.status = t₂.status ∧
    (∀ rd, dest i = some rd → t₁.status.err = 0 → t₁.reg rd = t₂.reg rd) ∧
    ((∃ rd rs1 imm, i = .muls rd rs1 imm) → t₁.status.err = 0 → t₁.xw = t₂.xw) ∧
    ((∃ rs1, i = .bitlen rs1) → t₁.len = t₂.len)

/-- R36, the frame, as the register map shows it: after a command every address but STATUS, the
destination's window, XW for MULS and LEN for BITLEN reads as before, and nothing outside the
registers changes either. -/
def Obligations.CommandFrameOnTheBus : Prop :=
  ∀ (i : Instr) (s t : State), s.Inv → exec i s = .next t →
    (∀ a : Addr, a ≠ 0x0002 →
      (a = 0x0003 → ¬ ∃ rd rs1 imm, i = .muls rd rs1 imm) →
      (a = 0x0004 → ¬ ∃ rs1, i = .bitlen rs1) →
      (∀ rd j, dest i = some rd → ¬ InWindow s.n a rd j) →
      busRead t a = busRead s a) ∧
    t.n = s.n ∧ t.host = s.host ∧ t.replies = s.replies ∧ t.delay = s.delay ∧ t.fresh = s.fresh

/-! ## The register bus -/

/-- R26: the layout of STATUS. -/
def Obligations.StatusWordLayout : Prop :=
  ∀ st : Status,
    field (statusWord st) 0 0 = (if st.busy then 1 else 0) ∧
    field (statusWord st) 1 1 = (if st.carry then 1 else 0) ∧
    field (statusWord st) 2 2 = (if st.borrow then 1 else 0) ∧
    field (statusWord st) 3 3 = (if st.ovf then 1 else 0) ∧
    field (statusWord st) 5 4 = st.cmp.toNat ∧
    field (statusWord st) 7 6 = 0 ∧
    field (statusWord st) 11 8 = st.err.toNat ∧
    field (statusWord st) 63 12 = 0

/-- R52, R53, R54, R57: what an access does in the IDLE state. -/
def Obligations.IdleAccessEffects : Prop :=
  (∀ (s : State) (a : Addr) (rest : List HostAction), s.Inv → s.status.busy = false →
    s.host = .read a :: rest →
    ∃ v, ReadsAs s a v ∧ step s = .next { s with host := rest, replies := s.replies ++ [v] }) ∧
  (∀ (s : State) (a : Addr) (v : Word) (rest : List HostAction), s.Inv → s.status.busy = false →
    s.host = .write a v :: rest →
    (a = 0x0001 → ∃ d, step s = .next
      { s with host := rest, cmd := v, status := { s.status with busy := true },
               delay := d, fresh := s.fresh + 1 }) ∧
    (a = 0x0003 → step s = .next { s with host := rest, xw := v }) ∧
    (∀ i j, InWindow s.n a i j →
      step s = .next { s with host := rest, regs := s.regs.set i ((s.reg i).set j v) }) ∧
    (a = 0x0000 ∨ a = 0x0002 ∨ a = 0x0004 ∨ Unmapped s.n a →
      step s = .next { s with host := rest }))

/-- R34: acceptance starts from IDLE, and a command word presented to a BUSY engine stays presented.
(R34's operand capture is not represented: assumption 4.) -/
def Obligations.AcceptanceStartsFromIdle : Prop :=
  ∀ (s : State) (c : Word) (rest : List HostAction), s.host = .write 0x0001 c :: rest →
    (s.status.busy = false → ∃ d, step s = .next
      { s with host := rest, cmd := c, status := { s.status with busy := true },
               delay := d, fresh := s.fresh + 1 }) ∧
    (s.status.busy = true → ∃ t, step s = .next t ∧ t.host = s.host ∧ t.cmd = s.cmd)

/-- While BUSY before the completing step only a read of STATUS is performed, and everything else is
held (from R58). THE MODEL'S CHOICE, assumption 3: the completion is a step of its own, taken at
`delay = 0`, which performs no access, so that a STATUS read presented at it is held too. -/
def Obligations.BusyHoldsEveryAccessButStatus : Prop :=
  ∀ s : State, s.status.busy = true → s.NoReset →
    (∀ rest, s.host = .read 0x0002 :: rest → s.delay ≠ 0 → step s = .next
      { s with host := rest, replies := s.replies ++ [statusWord s.status], delay := s.delay - 1 }) ∧
    ((∀ rest, s.host ≠ .read 0x0002 :: rest) → s.delay ≠ 0 →
      step s = .next { s.atTurn with delay := s.delay - 1 }) ∧
    (s.delay = 0 → step s = runCommand s.atTurn ∧
      ∀ t, step s = .next t → t.status.busy = false ∧ t.host = s.atTurn.host ∧ t.replies = s.replies)

/-- R37: a read performed while BUSY is one of STATUS, returns the value before the completion, and
shows no result of the command. -/
def Obligations.ReadsWhileBusyShowNoResult : Prop :=
  ∀ s t : State, s.status.busy = true → step s = .next t → t.replies ≠ s.replies →
    (∃ rest, s.host = .read 0x0002 :: rest ∧ t.host = rest) ∧
    t.replies = s.replies ++ [statusWord s.status] ∧
    t.status = s.status ∧ t.regs = s.regs ∧ t.xw = s.xw ∧ t.len = s.len ∧ t.cmd = s.cmd

/-- R60: no read changes a register, a repeated read returns the same value, and a repeated write of
a wide-register word or of XW changes nothing more. -/
def Obligations.AccessesAreIdempotent : Prop :=
  (∀ (s : State) (a b : Addr), busRead (performRead a s) b = busRead s b) ∧
  (∀ (s t : State) (a : Addr) (rest : List HostAction), s.status.busy = false →
    s.host = .read a :: .read a :: rest → Host.Core.run core 2 s = .next t →
    ∃ v, t = { s with host := rest, replies := s.replies ++ [v, v] }) ∧
  (∀ (s : State) (a : Addr) (v : Word), a ≠ 0x0001 →
    busWrite a v (busWrite a v s) = busWrite a v s)

/-- R38: a command in flight is complete after its remaining time and one step, unless reset comes
first. -/
def Obligations.EveryCommandCompletes : Prop :=
  ∀ s : State, s.status.busy = true → HostAction.reset ∉ s.host →
    ∃ t, Host.Core.run core (s.delay + 1) s = .next t ∧ t.status.busy = false

/-- From R62: whatever time the commands take, what the host does has the effect of its actions and of
the commands' whole effects taken one at a time in issue order. STATUS reads are left out: the early
value R39 allows them is stated per step by `BusyHoldsEveryAccessButStatus` and
`ReadsWhileBusyShowNoResult`. Resets are included, of which R62 says nothing: a reset is an action of
its own in the host's list (THE MODEL'S CHOICE, assumption 5) and abandons a command in flight
(R232). -/
def Obligations.HostSeesWholeCommandsInOrder : Prop :=
  ∀ (s : State) (acts : List HostAction), s.status.busy = false →
    HostAction.read 0x0002 ∉ acts →
    ∃ (k : Nat) (t : State), Host.Core.run core k { s with host := acts } = .next t ∧
      t.status.busy = false ∧ t = inOrder { s with host := [] } acts

/-! ## Reset -/

/-- R230: the effect of `rst`, whatever the state was. -/
def Obligations.ResetEffect : Prop :=
  ∀ (s : State) (rest : List HostAction), s.host = .reset :: rest →
    ∃ t, step s = .next t ∧
      t.status = { busy := false, carry := false, borrow := false, ovf := false, cmp := 0, err := 0 } ∧
      t.cmd = 0 ∧ t.xw = 0 ∧ t.len = 0 ∧ t.n = s.n ∧ (∀ i : Reg, (t.reg i).length = s.n) ∧
      t.host = rest ∧ t.replies = s.replies

/-- R232: reset leaves nothing of the command in flight or of any register behind: two machines of
one width that differ only there are the same after it. (The numbers of the free values drawn must
agree, since the wide registers' contents after reset are free.) -/
def Obligations.ResetLeavesNothingBehind : Prop :=
  ∀ (s₁ s₂ : State) (rest : List HostAction), s₁.n = s₂.n →
    s₁.host = .reset :: rest → s₂.host = .reset :: rest → s₁.replies = s₂.replies →
    s₁.fresh = s₂.fresh → step s₁ = step s₂

/-- R40: the state after reset. Its word count is the model's choice (assumption 1) and is named
only as what CONFIG shows. -/
def Obligations.ResetStateValues : Prop :=
  State.reset.xw = 0 ∧ State.reset.len = 0 ∧ State.reset.cmd = 0 ∧
  statusWord State.reset.status = 0 ∧
  (busRead State.reset 0x0000).toNat = State.reset.n + 16 * 2 ^ 16 + 64 * 2 ^ 24 ∧
  (∀ i : Reg, (State.reset.reg i).length = State.reset.n)

/-! ## Which events change what -/

/-- R22: a wide register changes only by reset, by a host write to its window, or as the destination
of a command that completes normally. -/
def Obligations.WideRegisterWriters : Prop :=
  ∀ (s t : State) (r : Reg), s.Inv → step s = .next t → t.reg r ≠ s.reg r →
    ¬ s.NoReset ∨
    (s.status.busy = false ∧ ∃ a v rest j, s.host = .write a v :: rest ∧ InWindow s.n a r j) ∨
    (s.Due ∧ t.status.err = 0 ∧ ∃ i, decode s.cmd = .ok i ∧ dest i = some r)

/-- R23: XW changes only by reset, by a host write, or by a MULS that completes normally; REDUCEX
alone reads it; its reset value is 0. -/
def Obligations.ExtensionWordWriters : Prop :=
  (∀ s t : State, step s = .next t → t.xw ≠ s.xw →
    ¬ s.NoReset ∨
    (s.status.busy = false ∧ ∃ v rest, s.host = .write 0x0003 v :: rest) ∨
    (s.Due ∧ t.status.err = 0 ∧ ∃ rd rs1 imm, decode s.cmd = .ok (.muls rd rs1 imm))) ∧
  (∀ (i : Instr) (s t : State) (x : Word), (∀ rd rs1 rm, i ≠ .reducex rd rs1 rm) →
    exec i s = .next t → ∃ y, exec i { s with xw := x } = .next { t with xw := y }) ∧
  State.reset.xw = 0

/-- R24: LEN changes only by reset or by BITLEN, which writes a value of `[0, 64 N]`, and no command
reads it. -/
def Obligations.LengthRegisterWriters : Prop :=
  (∀ s t : State, s.Inv → step s = .next t → t.len ≠ s.len →
    ¬ s.NoReset ∨
    (s.Due ∧ t.len.toNat ≤ 64 * s.n ∧ ∃ rs1, decode s.cmd = .ok (.bitlen rs1))) ∧
  (∀ (i : Instr) (s t : State) (x : Word), exec i s = .next t →
    ∃ y, exec i { s with len := x } = .next { t with len := y }) ∧
  State.reset.len = 0

/-- R25, R32: CMD changes only by acceptance or reset, and the engine becomes BUSY only by
acceptance and IDLE only by a completion or reset. -/
def Obligations.CommandRegisterAndBusyWriters : Prop :=
  ∀ s t : State, step s = .next t →
    (t.cmd ≠ s.cmd → ¬ s.NoReset ∨
      (s.status.busy = false ∧ ∃ c rest, s.host = .write 0x0001 c :: rest ∧ t.cmd = c)) ∧
    (s.status.busy = false → t.status.busy = true →
      ∃ c rest, s.host = .write 0x0001 c :: rest ∧ t.cmd = c) ∧
    (s.status.busy = true → t.status.busy = false → s.Due ∨ ¬ s.NoReset)

/-- R28: CONFIG is constant. -/
def Obligations.ConfigIsConstant : Prop :=
  (∀ s t : State, step s = .next t → busRead t 0x0000 = busRead s 0x0000) ∧
  (∀ s : State, s.Inv →
    field (busRead s 0x0000) 15 0 = s.n ∧ field (busRead s 0x0000) 23 16 = 16 ∧
    field (busRead s 0x0000) 31 24 = 64 ∧ field (busRead s 0x0000) 63 32 = 0) ∧
  (∀ s : State, s.n = 16 → busRead s 0x0000 = 0x0000000040100010)

/-! ## The step -/

/-- The step runs the decoded command: the per-command statements reach a run through this one. -/
def Obligations.StepRunsDecodedCommand : Prop :=
  ∀ (s : State) (i : Instr), s.Due → decode s.cmd = .ok i → step s = exec i s.atTurn

/-- Every step of every state answers a next state: no command word, no operand value and no bus
access stops the engine. -/
def Obligations.StepNeverStops : Prop :=
  ∀ s : State, ∃ t, step s = .next t

/-- The state after reset meets the invariant (its word count is the model's choice, assumption
1). -/
def Obligations.ResetMeetsInvariant : Prop := State.reset.Inv

/-- Every step keeps the invariant. -/
def Obligations.StepKeepsInvariant : Prop :=
  ∀ s t : State, s.Inv → step s = .next t → t.Inv
end

