-- ==== Sys2Proof/Laws/Words.lean ====
section
/-!
SUPPORT. Word vectors and their values: bounds, building and cutting vectors, bits, the zero test,
bit length and comparison.
-/
namespace Sys2Proof.Machine

@[simp] theorem val_nil : val [] = 0 := rfl

theorem val_cons (x : Word) (xs : Wide) : val (x :: xs) = x.toNat + 2 ^ 64 * val xs := rfl

theorem val_lt (X : Wide) : val X < 2 ^ (64 * X.length) := by
  induction X with
  | nil => simp
  | cons x xs ih =>
    have hx := x.isLt
    have : 2 ^ (64 * (xs.length + 1)) = 2 ^ 64 * 2 ^ (64 * xs.length) := by rw [← pow_add]; ring_nf
    rw [List.length_cons, this, val_cons]
    have := Nat.mul_le_mul_left (2 ^ 64) (Nat.succ_le_of_lt ih)
    rw [Nat.mul_succ] at this
    omega

theorem val_append (X Y : Wide) : val (X ++ Y) = val X + 2 ^ (64 * X.length) * val Y := by
  induction X with
  | nil => simp
  | cons x xs ih =>
    have : 2 ^ (64 * (xs.length + 1)) = 2 ^ 64 * 2 ^ (64 * xs.length) := by rw [← pow_add]; ring_nf
    rw [List.cons_append, val_cons, val_cons, ih, List.length_cons, this]
    ring

theorem val_zeros (L : Nat) : val (List.replicate L 0) = 0 := by
  induction L with
  | zero => rfl
  | succ L ih => rw [List.replicate_succ, val_cons, ih]; rfl

theorem val_zext {L : Nat} {X : Wide} : val (zext L X) = val X := by
  rw [zext, val_append, val_zeros, Nat.mul_zero, Nat.add_zero]

theorem length_zext {L : Nat} {X : Wide} (h : X.length ≤ L) : (zext L X).length = L := by
  simp [zext]; omega

theorem val_take (X : Wide) (k : Nat) : val (X.take k) = val X % 2 ^ (64 * k) := by
  induction X generalizing k with
  | nil => simp
  | cons x xs ih =>
    cases k with
    | zero => simp [Nat.mod_one]
    | succ k =>
      have hx := x.isLt
      have : 2 ^ (64 * (k + 1)) = 2 ^ 64 * 2 ^ (64 * k) := by rw [← pow_add]; ring_nf
      rw [List.take_succ_cons, val_cons, val_cons, ih, this, Nat.mod_mul,
        Nat.add_mul_mod_self_left, Nat.mod_eq_of_lt hx, Nat.add_mul_div_left _ _ (by decide),
        Nat.div_eq_of_lt hx, Nat.zero_add]

/-- A vector whose value fits `k` words keeps it when cut to them. -/
theorem val_take_of_lt {X : Wide} {k : Nat} (h : val X < 2 ^ (64 * k)) : val (X.take k) = val X := by
  rw [val_take, Nat.mod_eq_of_lt h]

@[simp] theorem length_words (L v : Nat) : (words L v).length = L := by
  induction L generalizing v with
  | zero => rfl
  | succ L ih => simp [words, ih]

theorem val_words (L v : Nat) : val (words L v) = v % 2 ^ (64 * L) := by
  induction L generalizing v with
  | zero => simp [words, Nat.mod_one]
  | succ L ih =>
    have : 2 ^ (64 * (L + 1)) = 2 ^ 64 * 2 ^ (64 * L) := by rw [← pow_add]; ring_nf
    rw [words, val_cons, ih, this, Nat.mod_mul, BitVec.toNat_ofNat]

theorem val_words_of_lt {L v : Nat} (h : v < 2 ^ (64 * L)) : val (words L v) = v := by
  rw [val_words, Nat.mod_eq_of_lt h]

/-- Vectors of one length are equal when their values are (R21). -/
theorem eq_of_val_eq {X Y : Wide} (hl : X.length = Y.length) (hv : val X = val Y) : X = Y := by
  induction X generalizing Y with
  | nil => exact (List.length_eq_zero_iff.mp hl.symm).symm
  | cons x xs ih =>
    obtain _ | ⟨y, ys⟩ := Y
    · simp at hl
    · have hx := x.isLt
      have hy := y.isLt
      rw [val_cons, val_cons] at hv
      have hxy : x.toNat = y.toNat := by omega
      have hs : val xs = val ys := by omega
      rw [BitVec.eq_of_toNat_eq hxy, ih (by simpa using hl) hs]

theorem isZero_iff (X : Wide) : isZero X = true ↔ val X = 0 := by
  induction X with
  | nil => simp [isZero]
  | cons x xs ih =>
    have : isZero (x :: xs) = (x == 0 && isZero xs) := rfl
    rw [this, Bool.and_eq_true, ih, val_cons, beq_iff_eq]
    constructor
    · rintro ⟨rfl, h⟩; simp [h]
    · intro h
      refine ⟨BitVec.eq_of_toNat_eq ?_, ?_⟩
      · simp; omega
      · omega

theorem isZero_false_iff (X : Wide) : isZero X = false ↔ val X ≠ 0 := by
  rw [← Bool.not_eq_true, isZero_iff]

/-! ### Bits -/

theorem wordAt_of_lt {X : Wide} {j : Nat} (h : j < X.length) : wordAt X j = X[j] := by
  simp [wordAt, h]

theorem wordAt_of_le {X : Wide} {j : Nat} (h : X.length ≤ j) : wordAt X j = 0 := by
  simp [wordAt, h]

theorem wordAt_range_map (L : Nat) (f : Nat → Word) (j : Nat) :
    wordAt ((List.range L).map f) j = if j < L then f j else 0 := by
  by_cases h : j < L
  · simp [wordAt, h]
  · simp [wordAt, h]

/-- Bit `i` of a vector's value is bit `i mod 64` of word `i div 64` (R9). -/
theorem testBit_val (X : Wide) (i : Nat) :
    (val X).testBit i = (wordAt X (i / 64)).toNat.testBit (i % 64) := by
  induction X generalizing i with
  | nil => simp [wordAt]
  | cons x xs ih =>
    rw [val_cons, Nat.add_comm, Nat.testBit_two_pow_mul_add _ x.isLt]
    split
    · next h => simp [wordAt, Nat.div_eq_of_lt h, Nat.mod_eq_of_lt h]
    · next h =>
      have h1 : i / 64 = (i - 64) / 64 + 1 := by omega
      have h2 : i % 64 = (i - 64) % 64 := by omega
      rw [ih, h1, h2]
      simp [wordAt]

/-! ### Bit length and comparison -/

theorem bitlen_cons (x : Word) (xs : Wide) :
    bitlen (x :: xs) =
      if bitlen xs ≠ 0 then 64 + bitlen xs else if x = 0 then 0 else x.toNat.log2 + 1 := rfl

/-- The bit length brackets the value (R142), and is 0 for value 0 only. -/
theorem bitlen_spec (X : Wide) :
    val X < 2 ^ bitlen X ∧ (bitlen X ≠ 0 → 2 ^ (bitlen X - 1) ≤ val X) := by
  induction X with
  | nil => simp [bitlen]
  | cons x xs ih =>
    have hx := x.isLt
    rw [bitlen_cons, val_cons]
    split
    · next h =>
      obtain ⟨h1, h2⟩ := ih
      refine ⟨?_, fun _ => ?_⟩
      · rw [pow_add]
        have := Nat.mul_le_mul_left (2 ^ 64) (Nat.succ_le_of_lt h1)
        rw [Nat.mul_succ] at this
        omega
      · have he : 64 + bitlen xs - 1 = 64 + (bitlen xs - 1) := by omega
        rw [he, pow_add]
        exact le_trans (Nat.mul_le_mul_left _ (h2 h)) (Nat.le_add_left _ _)
    · next h =>
      have h0 : bitlen xs = 0 := not_not.mp h
      have hv : val xs = 0 := by have := ih.1; rw [h0] at this; simpa using this
      rw [hv]
      split
      · next hz => subst hz; simp
      · next hz =>
        have hne : x.toNat ≠ 0 := fun hh => hz (BitVec.eq_of_toNat_eq (by simpa using hh))
        refine ⟨by simpa using Nat.lt_log2_self (n := x.toNat), fun _ => ?_⟩
        simpa using Nat.log2_self_le hne

theorem bitlen_eq_zero_iff (X : Wide) : bitlen X = 0 ↔ val X = 0 := by
  obtain ⟨h1, h2⟩ := bitlen_spec X
  constructor
  · intro h; rw [h] at h1; simpa using h1
  · intro h
    by_contra hne
    have := h2 hne
    have := Nat.two_pow_pos (bitlen X - 1)
    omega

theorem bitlen_le_iff (X : Wide) (k : Nat) : bitlen X ≤ k ↔ val X < 2 ^ k := by
  obtain ⟨h1, h2⟩ := bitlen_spec X
  constructor
  · intro h; exact lt_of_lt_of_le h1 (Nat.pow_le_pow_right (by decide) h)
  · intro h
    by_contra hk
    have hb := h2 (by omega)
    have : 2 ^ k ≤ 2 ^ (bitlen X - 1) := Nat.pow_le_pow_right (by decide) (by omega)
    omega

theorem bitlen_le_length (X : Wide) : bitlen X ≤ 64 * X.length :=
  (bitlen_le_iff X _).mpr (val_lt X)

/-- Equal values have equal bit lengths, whatever the vectors' lengths. -/
theorem bitlen_congr {X Y : Wide} (h : val X = val Y) : bitlen X = bitlen Y := by
  apply le_antisymm
  · rw [bitlen_le_iff, h]; exact (bitlen_spec Y).1
  · rw [bitlen_le_iff, ← h]; exact (bitlen_spec X).1

/-- The comparison is that of the values (R142). -/
theorem cmpWide_eq {A B : Wide} (h : A.length = B.length) :
    cmpWide A B = if val A < val B then -1 else if val B < val A then 1 else 0 := by
  induction A generalizing B with
  | nil =>
    rw [List.length_eq_zero_iff.mp h.symm]
    simp [cmpWide]
  | cons a as ih =>
    obtain _ | ⟨b, bs⟩ := B
    · simp at h
    · have ha := a.isLt
      have hb := b.isLt
      have hu : cmpWide (a :: as) (b :: bs) =
          if cmpWide as bs ≠ 0 then cmpWide as bs
          else if a.toNat < b.toNat then -1 else if b.toNat < a.toNat then 1 else 0 := rfl
      rw [hu, ih (by simpa using h), val_cons, val_cons]
      rcases Nat.lt_trichotomy (val as) (val bs) with hl | he | hg
      · have h1 : a.toNat + 2 ^ 64 * val as < b.toNat + 2 ^ 64 * val bs := by omega
        rw [if_pos hl, if_pos h1]; simp
      · have e1 : (a.toNat + 2 ^ 64 * val as < b.toNat + 2 ^ 64 * val bs) ↔ a.toNat < b.toNat := by
          omega
        have e2 : (b.toNat + 2 ^ 64 * val bs < a.toNat + 2 ^ 64 * val as) ↔ b.toNat < a.toNat := by
          omega
        rw [he] at e1 e2 ⊢
        rw [if_neg (lt_irrefl _), if_neg (lt_irrefl _)]
        simp only [e1, e2, ne_eq, not_true_eq_false, if_false]
      · have h1 : ¬ a.toNat + 2 ^ 64 * val as < b.toNat + 2 ^ 64 * val bs := by omega
        have h2 : b.toNat + 2 ^ 64 * val bs < a.toNat + 2 ^ 64 * val as := by omega
        have h3 : ¬ val as < val bs := by omega
        rw [if_neg h3, if_pos hg, if_neg h1, if_pos h2]; simp

theorem cmpWide_nonneg_iff {A B : Wide} (h : A.length = B.length) :
    0 ≤ cmpWide A B ↔ val B ≤ val A := by
  rw [cmpWide_eq h]
  split
  · omega
  · split <;> simp <;> omega

end Sys2Proof.Machine
end

