-- ==== Sys2Proof/Laws/AddSub.lean ====
section
/-!
SUPPORT. Addition and subtraction: everything their loops do, with any carry in.
-/
namespace Sys2Proof.Machine

theorem addFrom_cons (c : Nat) (a b : Word) (as bs : Wide) :
    addFrom c (a :: as) (b :: bs) =
      (BitVec.ofNat 64 (a.toNat + b.toNat + c) :: (addFrom ((a.toNat + b.toNat + c) / 2 ^ 64) as bs).1,
        (addFrom ((a.toNat + b.toNat + c) / 2 ^ 64) as bs).2) := rfl

/-- The addition loop: length, exact value and carry, for a carry in of 0 or 1. -/
theorem addFrom_spec {A B : Wide} (h : A.length = B.length) {c : Nat} (hc : c ≤ 1) :
    (addFrom c A B).1.length = A.length ∧ (addFrom c A B).2 ≤ 1 ∧
    val (addFrom c A B).1 + 2 ^ (64 * A.length) * (addFrom c A B).2 = val A + val B + c := by
  induction A generalizing B c with
  | nil =>
    rw [List.length_eq_zero_iff.mp h.symm]
    simp [addFrom, hc]
  | cons a as ih =>
    obtain _ | ⟨b, bs⟩ := B
    · simp at h
    · have ha := a.isLt
      have hb := b.isLt
      have hc' : (a.toNat + b.toNat + c) / 2 ^ 64 ≤ 1 := by omega
      obtain ⟨h1, h2, h3⟩ := ih (B := bs) (by simpa using h) hc'
      rw [addFrom_cons]
      refine ⟨by rw [List.length_cons, h1, List.length_cons], h2, ?_⟩
      have hp : 2 ^ (64 * (as.length + 1)) = 2 ^ 64 * 2 ^ (64 * as.length) := by
        rw [← pow_add]; ring_nf
      simp only [val_cons, BitVec.toNat_ofNat, List.length_cons]
      rw [hp, Nat.mul_assoc, Nat.add_assoc, ← Nat.mul_add, h3]
      omega

/-- `add_L` (R110, R114): length, carry of 0 or 1, and the exact sum. -/
theorem addWide_spec {A B : Wide} (h : A.length = B.length) :
    (addWide A B).1.length = A.length ∧ (addWide A B).2 ≤ 1 ∧
    val (addWide A B).1 + 2 ^ (64 * A.length) * (addWide A B).2 = val A + val B :=
  addFrom_spec h (by decide)

/-- A sum that fits its words is exact. -/
theorem val_addWide_of_lt {A B : Wide} (h : A.length = B.length)
    (hs : val A + val B < 2 ^ (64 * A.length)) : val (addWide A B).1 = val A + val B := by
  obtain ⟨-, h2, h3⟩ := addWide_spec h
  rcases Nat.le_one_iff_eq_zero_or_eq_one.mp h2 with h0 | h0 <;> rw [h0] at h3 <;> omega

theorem subFrom_cons (c : Nat) (a b : Word) (as bs : Wide) :
    subFrom c (a :: as) (b :: bs) =
      (BitVec.ofNat 64 (if (a.toNat : Int) - b.toNat - c < 0 then (a.toNat : Int) - b.toNat - c + 2 ^ 64
          else (a.toNat : Int) - b.toNat - c).toNat ::
        (subFrom (if (a.toNat : Int) - b.toNat - c < 0 then 1 else 0) as bs).1,
        (subFrom (if (a.toNat : Int) - b.toNat - c < 0 then 1 else 0) as bs).2) := rfl

/-- The subtraction loop: length, exact value and borrow, for a borrow in of 0 or 1. -/
theorem subFrom_spec {A B : Wide} (h : A.length = B.length) {c : Nat} (hc : c ≤ 1) :
    (subFrom c A B).1.length = A.length ∧ (subFrom c A B).2 ≤ 1 ∧
    val (subFrom c A B).1 + val B + c = val A + 2 ^ (64 * A.length) * (subFrom c A B).2 := by
  induction A generalizing B c with
  | nil =>
    rw [List.length_eq_zero_iff.mp h.symm]
    simp [subFrom, hc]
  | cons a as ih =>
    obtain _ | ⟨b, bs⟩ := B
    · simp at h
    · have ha := a.isLt
      have hb := b.isLt
      rw [subFrom_cons]
      have hp : 2 ^ (64 * (as.length + 1)) = 2 ^ 64 * 2 ^ (64 * as.length) := by
        rw [← pow_add]; ring_nf
      by_cases ht : (a.toNat : Int) - b.toNat - c < 0
      · simp only [if_pos ht, val_cons, BitVec.toNat_ofNat, List.length_cons]
        obtain ⟨h1, h2, h3⟩ := ih (B := bs) (by simpa using h) (c := 1) (by decide)
        refine ⟨by rw [h1], h2, ?_⟩
        rw [hp, Nat.mul_assoc]
        omega
      · simp only [if_neg ht, val_cons, BitVec.toNat_ofNat, List.length_cons]
        obtain ⟨h1, h2, h3⟩ := ih (B := bs) (by simpa using h) (c := 0) (by decide)
        refine ⟨by rw [h1], h2, ?_⟩
        rw [hp, Nat.mul_assoc]
        omega

/-- `sub_L` (R111, R114): length, borrow of 0 or 1, and the exact difference. -/
theorem subWide_spec {A B : Wide} (h : A.length = B.length) :
    (subWide A B).1.length = A.length ∧ (subWide A B).2 ≤ 1 ∧
    val (subWide A B).1 + val B = val A + 2 ^ (64 * A.length) * (subWide A B).2 :=
  subFrom_spec h (by decide)

/-- The borrow says which operand is smaller. -/
theorem subWide_borrow_iff {A B : Wide} (h : A.length = B.length) :
    (subWide A B).2 = 1 ↔ val A < val B := by
  obtain ⟨h1, h2, h3⟩ := subWide_spec h
  have hl := val_lt (subWide A B).1
  have hA := val_lt A
  rw [h1] at hl
  rcases Nat.le_one_iff_eq_zero_or_eq_one.mp h2 with h0 | h0 <;> rw [h0] at h3 ⊢ <;> simp <;> omega

/-- A difference of a value and one no larger is exact. -/
theorem val_subWide_of_le {A B : Wide} (h : A.length = B.length) (hs : val B ≤ val A) :
    val (subWide A B).1 = val A - val B := by
  obtain ⟨h1, h2, h3⟩ := subWide_spec h
  have h4 : (subWide A B).2 = 0 := by
    have := (subWide_borrow_iff h).not.mpr (by omega)
    omega
  rw [h4] at h3
  omega

end Sys2Proof.Machine
end

