-- ==== Sys2Proof/Laws/State.lean ====
section
/-!
SUPPORT. One lemma per field for each named update of the state, and the register file's laws.
-/
namespace Sys2Proof.Machine

/-! ### The register file -/

@[simp] theorem reg_setReg_same (s : State) (i : Reg) (X : Wide) : (s.setReg i X).reg i = X := by
  simp [State.reg, State.setReg]

theorem reg_setReg_ne (s : State) {i j : Reg} (X : Wide) (h : i ≠ j) :
    (s.setReg i X).reg j = s.reg j := by
  have : i.val ≠ j.val := fun hh => h (Fin.ext hh)
  simp [State.reg, State.setReg, this]

theorem reg_fillRegs (n : Nat) (file : Nat → Nat → Word) (i : Reg) :
    (fillRegs n file)[i] = (List.range n).map (file i) := by
  simp [fillRegs]

/-! ### Writing a wide register -/

@[simp] theorem setReg_n (s : State) (i : Reg) (X : Wide) : (s.setReg i X).n = s.n := rfl
@[simp] theorem setReg_xw (s : State) (i : Reg) (X : Wide) : (s.setReg i X).xw = s.xw := rfl
@[simp] theorem setReg_len (s : State) (i : Reg) (X : Wide) : (s.setReg i X).len = s.len := rfl
@[simp] theorem setReg_cmd (s : State) (i : Reg) (X : Wide) : (s.setReg i X).cmd = s.cmd := rfl
@[simp] theorem setReg_status (s : State) (i : Reg) (X : Wide) : (s.setReg i X).status = s.status := rfl
@[simp] theorem setReg_host (s : State) (i : Reg) (X : Wide) : (s.setReg i X).host = s.host := rfl
@[simp] theorem setReg_replies (s : State) (i : Reg) (X : Wide) :
    (s.setReg i X).replies = s.replies := rfl
@[simp] theorem setReg_delay (s : State) (i : Reg) (X : Wide) : (s.setReg i X).delay = s.delay := rfl
@[simp] theorem setReg_fresh (s : State) (i : Reg) (X : Wide) : (s.setReg i X).fresh = s.fresh := rfl

/-! ### The status step of a normal completion -/

@[simp] theorem complete_n (q : Status) (s : State) : (complete q s).n = s.n := rfl
@[simp] theorem complete_regs (q : Status) (s : State) : (complete q s).regs = s.regs := rfl
@[simp] theorem complete_reg (q : Status) (s : State) (i : Reg) : (complete q s).reg i = s.reg i := rfl
@[simp] theorem complete_xw (q : Status) (s : State) : (complete q s).xw = s.xw := rfl
@[simp] theorem complete_len (q : Status) (s : State) : (complete q s).len = s.len := rfl
@[simp] theorem complete_cmd (q : Status) (s : State) : (complete q s).cmd = s.cmd := rfl
@[simp] theorem complete_status (q : Status) (s : State) : (complete q s).status = q := rfl
@[simp] theorem complete_host (q : Status) (s : State) : (complete q s).host = s.host := rfl
@[simp] theorem complete_replies (q : Status) (s : State) : (complete q s).replies = s.replies := rfl
@[simp] theorem complete_delay (q : Status) (s : State) : (complete q s).delay = s.delay := rfl
@[simp] theorem complete_fresh (q : Status) (s : State) : (complete q s).fresh = s.fresh := rfl

/-! ### The error completion -/

@[simp] theorem raise_n (e : Error) (s : State) : (raise e s).n = s.n := rfl
@[simp] theorem raise_regs (e : Error) (s : State) : (raise e s).regs = s.regs := rfl
@[simp] theorem raise_reg (e : Error) (s : State) (i : Reg) : (raise e s).reg i = s.reg i := rfl
@[simp] theorem raise_xw (e : Error) (s : State) : (raise e s).xw = s.xw := rfl
@[simp] theorem raise_len (e : Error) (s : State) : (raise e s).len = s.len := rfl
@[simp] theorem raise_cmd (e : Error) (s : State) : (raise e s).cmd = s.cmd := rfl
@[simp] theorem raise_status (e : Error) (s : State) : (raise e s).status = errorStatus e := rfl
@[simp] theorem raise_host (e : Error) (s : State) : (raise e s).host = s.host := rfl
@[simp] theorem raise_replies (e : Error) (s : State) : (raise e s).replies = s.replies := rfl
@[simp] theorem raise_delay (e : Error) (s : State) : (raise e s).delay = s.delay := rfl
@[simp] theorem raise_fresh (e : Error) (s : State) : (raise e s).fresh = s.fresh := rfl

/-! ### Acceptance -/

@[simp] theorem accept_n (c : Word) (s : State) : (accept c s).n = s.n := rfl
@[simp] theorem accept_regs (c : Word) (s : State) : (accept c s).regs = s.regs := rfl
@[simp] theorem accept_reg (c : Word) (s : State) (i : Reg) : (accept c s).reg i = s.reg i := rfl
@[simp] theorem accept_xw (c : Word) (s : State) : (accept c s).xw = s.xw := rfl
@[simp] theorem accept_len (c : Word) (s : State) : (accept c s).len = s.len := rfl
@[simp] theorem accept_cmd (c : Word) (s : State) : (accept c s).cmd = c := rfl
@[simp] theorem accept_busy (c : Word) (s : State) : (accept c s).status.busy = true := rfl
@[simp] theorem accept_host (c : Word) (s : State) : (accept c s).host = s.host := rfl
@[simp] theorem accept_replies (c : Word) (s : State) : (accept c s).replies = s.replies := rfl
@[simp] theorem accept_delay (c : Word) (s : State) :
    (accept c s).delay = Config.latency s.fresh c s.regs s.xw := rfl
@[simp] theorem accept_fresh (c : Word) (s : State) : (accept c s).fresh = s.fresh + 1 := rfl

/-! ### A performed read -/

@[simp] theorem performRead_n (a : Addr) (s : State) : (performRead a s).n = s.n := rfl
@[simp] theorem performRead_regs (a : Addr) (s : State) : (performRead a s).regs = s.regs := rfl
@[simp] theorem performRead_xw (a : Addr) (s : State) : (performRead a s).xw = s.xw := rfl
@[simp] theorem performRead_len (a : Addr) (s : State) : (performRead a s).len = s.len := rfl
@[simp] theorem performRead_cmd (a : Addr) (s : State) : (performRead a s).cmd = s.cmd := rfl
@[simp] theorem performRead_status (a : Addr) (s : State) : (performRead a s).status = s.status := rfl
@[simp] theorem performRead_host (a : Addr) (s : State) : (performRead a s).host = s.host := rfl

@[simp] theorem performRead_reg (a : Addr) (s : State) (i : Reg) :
    (performRead a s).reg i = s.reg i := rfl
@[simp] theorem performRead_replies (a : Addr) (s : State) :
    (performRead a s).replies = s.replies ++ [busRead s a] := rfl
@[simp] theorem performRead_delay (a : Addr) (s : State) : (performRead a s).delay = s.delay := rfl
@[simp] theorem performRead_fresh (a : Addr) (s : State) : (performRead a s).fresh = s.fresh := rfl

/-! ### Reset -/

@[simp] theorem resetEngine_n (s : State) : (resetEngine s).n = s.n := rfl
@[simp] theorem resetEngine_xw (s : State) : (resetEngine s).xw = 0 := rfl
@[simp] theorem resetEngine_len (s : State) : (resetEngine s).len = 0 := rfl
@[simp] theorem resetEngine_cmd (s : State) : (resetEngine s).cmd = 0 := rfl
@[simp] theorem resetEngine_status (s : State) : (resetEngine s).status = Status.zero := rfl
@[simp] theorem resetEngine_host (s : State) : (resetEngine s).host = s.host := rfl
@[simp] theorem resetEngine_delay (s : State) : (resetEngine s).delay = 0 := rfl
@[simp] theorem resetEngine_fresh (s : State) : (resetEngine s).fresh = s.fresh + 1 := rfl
@[simp] theorem resetEngine_replies (s : State) : (resetEngine s).replies = s.replies := rfl

/-- After reset every wide register has `n` words, whatever they hold. -/
theorem resetWith_reg_length (n k : Nat) (host : List HostAction) (replies : List Word) (i : Reg) :
    ((State.resetWith n k host replies).reg i).length = n := by
  have h : (State.resetWith n k host replies).reg i = (List.range n).map (Config.resetWord k i) :=
    reg_fillRegs n _ i
  simp [h]

end Sys2Proof.Machine
end

