-- ==== Sys2Proof/Laws/Bus.lean ====
section
/-!
SUPPORT. The address map said once (R52, R53, R54), and what a performed write can do.
-/
namespace Sys2Proof.Machine

/-- The window of the wide registers (R53). -/
theorem place_regWord_iff {n : Nat} (hn : n ≤ 256) (a : Addr) (i : Reg) (j : Nat) :
    place n a = .regWord i j ↔ j < n ∧ a.toNat = 0x1000 + 256 * i.val + j := by
  have hi := i.isLt
  have ha := a.isLt
  have e0 : a = 0x0000 ↔ a.toNat = 0 := BitVec.toNat_inj.symm
  have e1 : a = 0x0001 ↔ a.toNat = 1 := BitVec.toNat_inj.symm
  have e2 : a = 0x0002 ↔ a.toNat = 2 := BitVec.toNat_inj.symm
  have e3 : a = 0x0003 ↔ a.toNat = 3 := BitVec.toNat_inj.symm
  have e4 : a = 0x0004 ↔ a.toNat = 4 := BitVec.toNat_inj.symm
  simp only [place, e0, e1, e2, e3, e4]
  split_ifs <;> simp only [Place.regWord.injEq, false_iff, Fin.ext_iff, Fin.ofNat] <;>
    omega

/-- The addresses that name no register (R54). -/
theorem place_unmapped_iff (n : Nat) (a : Addr) :
    place n a = .unmapped ↔
      (0x0005 ≤ a.toNat ∧ a.toNat ≤ 0x0FFF) ∨
      (0x1000 ≤ a.toNat ∧ a.toNat ≤ 0x1FFF ∧ n ≤ a.toNat % 256) ∨ 0x2000 ≤ a.toNat := by
  have ha := a.isLt
  have e0 : a = 0x0000 ↔ a.toNat = 0 := BitVec.toNat_inj.symm
  have e1 : a = 0x0001 ↔ a.toNat = 1 := BitVec.toNat_inj.symm
  have e2 : a = 0x0002 ↔ a.toNat = 2 := BitVec.toNat_inj.symm
  have e3 : a = 0x0003 ↔ a.toNat = 3 := BitVec.toNat_inj.symm
  have e4 : a = 0x0004 ↔ a.toNat = 4 := BitVec.toNat_inj.symm
  simp only [place, e0, e1, e2, e3, e4]
  split_ifs <;> simp only [false_iff, true_iff] <;> omega

/-- Which address each of the scalar registers has (R52). -/
theorem place_scalar_iff (n : Nat) (a : Addr) :
    (place n a = .config ↔ a = 0x0000) ∧ (place n a = .cmd ↔ a = 0x0001) ∧
    (place n a = .status ↔ a = 0x0002) ∧ (place n a = .xw ↔ a = 0x0003) ∧
    (place n a = .len ↔ a = 0x0004) := by
  simp only [place]
  split_ifs <;> simp_all

/-- What a performed write does (R57): one case for each effect it can have. -/
inductive WriteKind (a : Addr) (v : Word) (s : State) : State → Prop
  | command (h : a = 0x0001) : WriteKind a v s (accept v s)
  | extension (h : a = 0x0003) : WriteKind a v s { s with xw := v }
  | regWord (i : Reg) (j : Nat) (h : place s.n a = .regWord i j) : WriteKind a v s (s.setRegWord i j v)
  | nothing (h1 : a ≠ 0x0001) (h3 : a ≠ 0x0003) : WriteKind a v s s

theorem write_kind (a : Addr) (v : Word) (s : State) : WriteKind a v s (busWrite a v s) := by
  obtain ⟨-, hc, -, hx, -⟩ := place_scalar_iff s.n a
  rw [busWrite]
  split <;> rename_i hp
  · exact .nothing (fun h => by rw [hc.mpr h] at hp; cases hp) (fun h => by rw [hx.mpr h] at hp; cases hp)
  · exact .command (hc.mp hp)
  · exact .nothing (fun h => by rw [hc.mpr h] at hp; cases hp) (fun h => by rw [hx.mpr h] at hp; cases hp)
  · exact .extension (hx.mp hp)
  · exact .nothing (fun h => by rw [hc.mpr h] at hp; cases hp) (fun h => by rw [hx.mpr h] at hp; cases hp)
  · exact .regWord _ _ hp
  · exact .nothing (fun h => by rw [hc.mpr h] at hp; cases hp) (fun h => by rw [hx.mpr h] at hp; cases hp)

end Sys2Proof.Machine
end

