-- ==== Sys2Proof/Laws/PerInstr.lean ====
section
/-!
SUPPORT. Facts about every command as syntax, one lemma per constructor: cutting the encoded word
into its fields gives back the fields the command was built from (R81, R87).
-/
namespace Sys2Proof

/-- Field values that fit their fields (R81). -/
structure Fields.Fit (f : Fields) : Prop where
  op : f.op < 2 ^ 8
  rd : f.rd < 2 ^ 4
  rs1 : f.rs1 < 2 ^ 4
  rs2 : f.rs2 < 2 ^ 4
  rm : f.rm < 2 ^ 4
  z : f.z < 2 ^ 8
  imm : f.imm < 2 ^ 32

/-- The sum of R87 keeps the fields apart. -/
theorem unpack_packNat {f : Fields} (h : f.Fit) : unpack (BitVec.ofNat 64 (packNat f)) = f := by
  obtain ⟨h1, h2, h3, h4, h5, h6, h7⟩ := h
  obtain ⟨op, rd, rs1, rs2, rm, z, imm⟩ := f
  simp only [unpack, packNat, slice, BitVec.toNat_ofNat, Fields.mk.injEq] at *
  refine ⟨?_, ?_, ?_, ?_, ?_, ?_, ?_⟩ <;> omega

/-- Putting the fields of a word together gives back the word. -/
theorem packNat_unpack (c : Word) : packNat (unpack c) = c.toNat := by
  have := c.isLt
  simp only [packNat, unpack, slice]
  omega

/-- A well-formed command's field values fit their fields. -/
theorem fieldsOf_fit {i : Instr} (h : i.WellFormed) : (fieldsOf i).Fit := by
  cases i <;> constructor <;> simp_all only [fieldsOf, Instr.WellFormed, Instr.immediate] <;> omega

namespace Laws.FieldsSurvive

/-- Encoding and cutting the word into its fields loses nothing. -/
def Statement (i : Instr) : Prop := i.WellFormed → unpack (encode i) = fieldsOf i

theorem add (rd rs1 rs2 : Reg) : Statement (.add rd rs1 rs2) := fun h =>
  unpack_packNat (fieldsOf_fit h)

theorem sub (rd rs1 rs2 : Reg) : Statement (.sub rd rs1 rs2) := fun h =>
  unpack_packNat (fieldsOf_fit h)

theorem muls (rd rs1 : Reg) (imm : Nat) : Statement (.muls rd rs1 imm) := fun h =>
  unpack_packNat (fieldsOf_fit h)

theorem shl (rd rs1 : Reg) (imm : Nat) : Statement (.shl rd rs1 imm) := fun h =>
  unpack_packNat (fieldsOf_fit h)

theorem shr (rd rs1 : Reg) (imm : Nat) : Statement (.shr rd rs1 imm) := fun h =>
  unpack_packNat (fieldsOf_fit h)

theorem bitlen (rs1 : Reg) : Statement (.bitlen rs1) := fun h =>
  unpack_packNat (fieldsOf_fit h)

theorem cmp (rs1 rs2 : Reg) : Statement (.cmp rs1 rs2) := fun h =>
  unpack_packNat (fieldsOf_fit h)

theorem reduce (rd rs1 rm : Reg) : Statement (.reduce rd rs1 rm) := fun h =>
  unpack_packNat (fieldsOf_fit h)

theorem reducex (rd rs1 rm : Reg) : Statement (.reducex rd rs1 rm) := fun h =>
  unpack_packNat (fieldsOf_fit h)

theorem modmul (rd rs1 rs2 rm : Reg) : Statement (.modmul rd rs1 rs2 rm) := fun h =>
  unpack_packNat (fieldsOf_fit h)

theorem modexp (rd rs1 rs2 rm : Reg) : Statement (.modexp rd rs1 rs2 rm) := fun h =>
  unpack_packNat (fieldsOf_fit h)

theorem modinv (rd rs1 rm : Reg) : Statement (.modinv rd rs1 rm) := fun h =>
  unpack_packNat (fieldsOf_fit h)

end Laws.FieldsSurvive

end Sys2Proof
end

