-- ==== Sys2Proof/Laws/Decode.lean ====
section
/-!
SUPPORT. Bits and fields of a command word, the match and mask columns as fields (R84), and what a
decoded command says of its word.
-/
namespace Sys2Proof

/-- A field has value `k` when its bits are those of `k` (R8). -/
theorem slice_eq_iff {v hi lo k : Nat} (hk : k < 2 ^ (hi - lo + 1)) :
    slice v hi lo = k ↔ ∀ i, i < hi - lo + 1 → v.testBit (lo + i) = k.testBit i := by
  constructor
  · rintro rfl i hi'
    rw [slice, Nat.testBit_mod_two_pow, Nat.testBit_div_two_pow, Nat.add_comm i]
    simp [hi']
  · intro h
    apply Nat.eq_of_testBit_eq
    intro i
    rw [slice, Nat.testBit_mod_two_pow, Nat.testBit_div_two_pow, Nat.add_comm i]
    by_cases hi' : i < hi - lo + 1
    · simp [hi', h i hi']
    · have : k < 2 ^ i := lt_of_lt_of_le hk (Nat.pow_le_pow_right (by decide) (by omega))
      simp [hi', Nat.testBit_lt_two_pow this]

theorem slice_eq_zero_iff {v hi lo : Nat} :
    slice v hi lo = 0 ↔ ∀ i, i < hi - lo + 1 → v.testBit (lo + i) = false := by
  rw [slice_eq_iff (Nat.two_pow_pos _)]
  simp

/-- A mask made of the opcode bits and two more fields: the masked word is the pattern exactly when
the opcode is and the two fields are zero. -/
theorem mask_iff {c m p : Word} {h1 l1 h2 l2 : Nat} (hl1 : l1 ≤ h1) (hl2 : l2 ≤ h2)
    (hh1 : h1 < 64) (hh2 : h2 < 64) (hl18 : 8 ≤ l1) (hl28 : 8 ≤ l2) (hp : p.toNat < 256)
    (hm : ∀ i, i < 64 → m.getLsbD i = decide (i < 8 ∨ (l1 ≤ i ∧ i ≤ h1) ∨ (l2 ≤ i ∧ i ≤ h2))) :
    c &&& m = p ↔
      slice c.toNat 7 0 = p.toNat ∧ slice c.toNat h1 l1 = 0 ∧ slice c.toNat h2 l2 = 0 := by
  have hp' : ∀ i, 8 ≤ i → p.toNat.testBit i = false := fun i hi =>
    Nat.testBit_lt_two_pow (lt_of_lt_of_le hp (Nat.pow_le_pow_right (by decide) hi : 2 ^ 8 ≤ 2 ^ i))
  have hbits : c &&& m = p ↔
      ∀ i, i < 64 → (c.toNat.testBit i && m.toNat.testBit i) = p.toNat.testBit i := by
    constructor
    · rintro rfl i _; simp
    · intro h
      apply BitVec.eq_of_getLsbD_eq
      intro i hi
      simpa [← BitVec.testBit_toNat] using h i hi
  simp only [← BitVec.testBit_toNat] at hm
  rw [hbits, slice_eq_iff (by simpa using hp), slice_eq_zero_iff, slice_eq_zero_iff]
  constructor
  · intro h
    refine ⟨fun i hi => ?_, fun i hi => ?_, fun i hi => ?_⟩
    · have := h (0 + i) (by omega)
      rw [hm _ (by omega), decide_eq_true (by omega)] at this
      simpa using this
    · have := h (l1 + i) (by omega)
      rw [hm _ (by omega), decide_eq_true (by omega), hp' _ (by omega)] at this
      simpa using this
    · have := h (l2 + i) (by omega)
      rw [hm _ (by omega), decide_eq_true (by omega), hp' _ (by omega)] at this
      simpa using this
  · rintro ⟨k0, k1, k2⟩ i hi
    rw [hm i hi]
    by_cases i0 : i < 8
    · have := k0 i (by omega)
      rw [decide_eq_true (.inl i0), Bool.and_true]
      simpa using this
    · rw [hp' i (by omega)]
      by_cases i1 : l1 ≤ i ∧ i ≤ h1
      · have := k1 (i - l1) (by omega)
        rw [Nat.add_sub_cancel' i1.1] at this
        simp [this]
      · by_cases i2 : l2 ≤ i ∧ i ≤ h2
        · have := k2 (i - l2) (by omega)
          rw [Nat.add_sub_cancel' i2.1] at this
          simp [this]
        · rw [decide_eq_false (by omega), Bool.and_false]

/-- A decoded command is well formed, and its word has exactly the command's fields (R85, R86). -/
theorem decode_ok {c : Word} {i : Instr} (h : decode c = .ok i) :
    i.WellFormed ∧ unpack c = fieldsOf i := by
  have hc := c.isLt
  simp only [decode, decodeFields] at h
  have hrd : (unpack c).rd < 16 := by simp only [unpack, slice]; omega
  have hrs1 : (unpack c).rs1 < 16 := by simp only [unpack, slice]; omega
  have hrs2 : (unpack c).rs2 < 16 := by simp only [unpack, slice]; omega
  have hrm : (unpack c).rm < 16 := by simp only [unpack, slice]; omega
  have himm : (unpack c).imm < 2 ^ 32 := by simp only [unpack, slice]; omega
  generalize unpack c = f at *
  obtain ⟨op, rd, rs1, rs2, rm, z, imm⟩ := f
  simp only at *
  split at h <;> (try simp only [whenZero] at h) <;> (try split at h) <;> try (cases h)
  all_goals
    simp_all [Instr.WellFormed, Instr.immediate, fieldsOf, regOfField, Fin.ofNat, Nat.mod_eq_of_lt]

end Sys2Proof
end

