-- ==== Sys2Proof/Laws/Muls.lean ====
section
/-!
SUPPORT. The scalar product: everything its loop does, with any carry in.
-/
namespace Sys2Proof.Machine

theorem mulsFrom_cons (s c : Nat) (a : Word) (as : Wide) :
    mulsFrom s c (a :: as) =
      let t := slice a.toNat 31 0 * s + slice a.toNat 63 32 * s * 2 ^ 32 + c
      BitVec.ofNat 64 t :: mulsFrom s (t / 2 ^ 64) as := rfl

/-- The two halves of a word make up the word. -/
theorem slice_halves (a : Word) : slice a.toNat 31 0 + slice a.toNat 63 32 * 2 ^ 32 = a.toNat := by
  have := a.isLt
  simp only [slice]
  omega

@[simp] theorem length_mulsFrom (s c : Nat) (A : Wide) : (mulsFrom s c A).length = A.length + 1 := by
  induction A generalizing c with
  | nil => rfl
  | cons a as ih => rw [mulsFrom_cons]; simp [ih]

/-- The product loop is exact for a carry below the scalar (or 0). -/
theorem val_mulsFrom {A : Wide} {s c : Nat} (hs : s < 2 ^ 32) (hc : c ≤ s) :
    val (mulsFrom s c A) = val A * s + c := by
  induction A generalizing c with
  | nil =>
    show val [BitVec.ofNat 64 c] = _
    rw [val_cons, BitVec.toNat_ofNat, Nat.mod_eq_of_lt (by omega)]
    simp
  | cons a as ih =>
    rw [mulsFrom_cons]
    have ht : slice a.toNat 31 0 * s + slice a.toNat 63 32 * s * 2 ^ 32 + c = a.toNat * s + c := by
      conv_rhs => rw [← slice_halves a]
      ring
    simp only [ht]
    have hb : (a.toNat * s + c) / 2 ^ 64 ≤ s := by
      have : a.toNat * s ≤ (2 ^ 64 - 1) * s := Nat.mul_le_mul_right s (by have := a.isLt; omega)
      rw [Nat.div_le_iff_le_mul_add_pred (by decide)]
      omega
    rw [val_cons, ih hb, BitVec.toNat_ofNat, val_cons]
    have hd := Nat.div_add_mod (a.toNat * s + c) (2 ^ 64)
    rw [Nat.add_mul]
    generalize hv : val as * s = v at *
    rw [Nat.mul_assoc, hv]
    omega

/-- `muls_L` (R120, R121): one word longer, and the exact product. -/
theorem mulsWide_spec {A : Wide} {s : Nat} (hs : s < 2 ^ 32) :
    (mulsWide A s).length = A.length + 1 ∧ val (mulsWide A s) = val A * s :=
  ⟨length_mulsFrom s 0 A, val_mulsFrom (A := A) hs (Nat.zero_le s)⟩

/-- A vector splits into its low words and its top word. -/
theorem val_take_add_top {P : Wide} {n : Nat} (h : P.length = n + 1) :
    val (P.take n) + (wordAt P n).toNat * 2 ^ (64 * n) = val P := by
  have hP : P = P.take n ++ [wordAt P n] := by
    rw [wordAt_of_lt (by omega)]
    conv_lhs => rw [← List.take_append_drop n P]
    rw [List.drop_eq_getElem_cons (by omega), List.drop_eq_nil_of_le (by omega)]
  conv_rhs => rw [hP]
  rw [val_append, val_cons, List.length_take, Nat.min_eq_left (by omega)]
  simp [Nat.mul_comm]

end Sys2Proof.Machine
end

