-- ==== Sys2Proof/Laws/Shift.lean ====
section
/-!
SUPPORT. The shifts, bit by bit and as values.
-/
namespace Sys2Proof.Machine

@[simp] theorem length_shlWide (A : Wide) (k : Nat) : (shlWide A k).1.length = A.length := by
  simp [shlWide]

@[simp] theorem length_shrWide (A : Wide) (k : Nat) : (shrWide A k).length = A.length := by
  simp [shrWide]

/-- A bit of a word put together from a part shifted up and a part below it. -/
theorem testBit_join {w b m : Nat} (hm : m ≤ 64) (hb : b < 2 ^ m) (r : Nat) :
    (w * 2 ^ m % 2 ^ 64 + b).testBit r =
      if r < m then b.testBit r else decide (r < 64) && w.testBit (r - m) := by
  have hs : (2 : Nat) ^ 64 = 2 ^ m * 2 ^ (64 - m) := by rw [← pow_add]; congr 1; omega
  rw [Nat.mul_comm w, hs, Nat.mul_mod_mul_left, Nat.testBit_two_pow_mul_add _ hb]
  split
  · rfl
  · rw [Nat.testBit_mod_two_pow]
    congr 1
    simp only [decide_eq_decide]
    omega

theorem join_lt {w b m : Nat} (hm : m ≤ 64) (hb : b < 2 ^ m) : w * 2 ^ m % 2 ^ 64 + b < 2 ^ 64 := by
  have hs : (2 : Nat) ^ 64 = 2 ^ m * 2 ^ (64 - m) := by rw [← pow_add]; congr 1; omega
  rw [Nat.mul_comm w, hs, Nat.mul_mod_mul_left]
  have h1 := Nat.mod_lt w (Nat.two_pow_pos (64 - m))
  have h2 := Nat.mul_le_mul_left (2 ^ m) (Nat.succ_le_of_lt h1)
  rw [Nat.mul_succ] at h2
  omega

/-- Bit `r` of word `i` of a left shift is bit `64 i + r - k` of the value (R130). -/
theorem testBit_shlWord (A : Wide) (k i r : Nat) (hr : r < 64) :
    (shlWord A k i).toNat.testBit r = (decide (k ≤ 64 * i + r) && (val A).testBit (64 * i + r - k)) := by
  have hbs : k % 64 < 64 := Nat.mod_lt _ (by decide)
  have hk := Nat.div_add_mod k 64
  simp only [shlWord]
  split
  · next h =>
    have : ¬ k ≤ 64 * i + r := by omega
    simp [this]
  · next h =>
    have hlow : (wordAt A (i - k / 64 - 1)).toNat / 2 ^ (64 - k % 64) < 2 ^ (k % 64) := by
      rw [Nat.div_lt_iff_lt_mul (Nat.two_pow_pos _), ← pow_add, Nat.add_sub_cancel' hbs.le]
      exact (wordAt A _).isLt
    split
    · next hb =>
      rw [BitVec.toNat_ofNat, Nat.mod_eq_of_lt (join_lt hbs.le hlow), testBit_join hbs.le hlow,
        testBit_val]
      have hk' : k ≤ 64 * i + r := by omega
      split
      · next hr' =>
        have e1 : (64 * i + r - k) / 64 = i - k / 64 - 1 := by omega
        have e2 : (64 * i + r - k) % 64 = 64 - k % 64 + r := by omega
        rw [Nat.testBit_div_two_pow, e1, e2, Nat.add_comm r]
        simp [hk']
      · next hr' =>
        have e1 : (64 * i + r - k) / 64 = i - k / 64 := by omega
        have e2 : (64 * i + r - k) % 64 = r - k % 64 := by omega
        rw [e1, e2]
        simp [hk', hr]
    · next hb =>
      have h0 : (wordAt A (i - k / 64)).toNat * 2 ^ (k % 64) % 2 ^ 64 < 2 ^ 64 :=
        Nat.mod_lt _ (by decide)
      have hj := testBit_join (w := (wordAt A (i - k / 64)).toNat) hbs.le (Nat.two_pow_pos (k % 64)) r
      rw [Nat.add_zero] at hj
      rw [BitVec.toNat_ofNat, Nat.mod_eq_of_lt h0, hj, testBit_val]
      split
      · next hr' =>
        have : ¬ k ≤ 64 * i + r := by omega
        simp [this]
      · next hr' =>
        have hk' : k ≤ 64 * i + r := by omega
        have e1 : (64 * i + r - k) / 64 = i - k / 64 := by omega
        have e2 : (64 * i + r - k) % 64 = r - k % 64 := by omega
        rw [e1, e2]
        simp [hk', hr]

/-- The left shift drops what leaves the vector (R132). -/
theorem val_shlWide (A : Wide) (k : Nat) :
    val (shlWide A k).1 = val A * 2 ^ k % 2 ^ (64 * A.length) := by
  apply Nat.eq_of_testBit_eq
  intro i
  rw [testBit_val, Nat.testBit_mod_two_pow, Nat.testBit_mul_two_pow]
  show (wordAt ((List.range A.length).map (shlWord A k)) (i / 64)).toNat.testBit (i % 64) = _
  rw [wordAt_range_map]
  have hi := Nat.div_add_mod i 64
  have hr : i % 64 < 64 := Nat.mod_lt _ (by decide)
  split
  · next h =>
    have : i < 64 * A.length := by omega
    rw [testBit_shlWord _ _ _ _ hr, hi]
    simp [this]
  · next h =>
    have : ¬ i < 64 * A.length := by omega
    simp [this]

/-- A left shift that keeps every set bit is exact. -/
theorem val_shlWide_of_lt {A : Wide} {k : Nat} (h : val A * 2 ^ k < 2 ^ (64 * A.length)) :
    val (shlWide A k).1 = val A * 2 ^ k := by
  rw [val_shlWide, Nat.mod_eq_of_lt h]

/-- `lost` says that a set bit left the vector (R132). -/
theorem shlWide_lost_iff (A : Wide) (k : Nat) :
    (shlWide A k).2 = true ↔ 2 ^ (64 * A.length) ≤ val A * 2 ^ k := by
  have h2 := bitlen_spec A
  simp only [shlWide, Bool.and_eq_true, Bool.not_eq_true', decide_eq_true_eq, isZero_false_iff]
  constructor
  · rintro ⟨h, hb⟩
    have hne : bitlen A ≠ 0 := fun h0 => h ((bitlen_eq_zero_iff A).mp h0)
    calc 2 ^ (64 * A.length) ≤ 2 ^ (bitlen A - 1 + k) := Nat.pow_le_pow_right (by decide) (by omega)
      _ = 2 ^ (bitlen A - 1) * 2 ^ k := pow_add ..
      _ ≤ val A * 2 ^ k := Nat.mul_le_mul_right _ (h2.2 hne)
  · intro h
    refine ⟨fun h0 => ?_, ?_⟩
    · rw [h0] at h
      have := Nat.two_pow_pos (64 * A.length)
      omega
    · by_contra hb
      have : val A * 2 ^ k < 2 ^ (bitlen A + k) := by
        rw [pow_add]; exact Nat.mul_lt_mul_of_pos_right h2.1 (Nat.two_pow_pos k)
      have : 2 ^ (bitlen A + k) ≤ 2 ^ (64 * A.length) := Nat.pow_le_pow_right (by decide) (by omega)
      omega

/-- Bit `r` of word `i` of a right shift is bit `64 i + r + k` of the value (R131). -/
theorem testBit_shrWord (A : Wide) (k i r : Nat) (hr : r < 64) :
    (shrWord A k i).toNat.testBit r = (val A).testBit (64 * i + r + k) := by
  have hbs : k % 64 < 64 := Nat.mod_lt _ (by decide)
  have hk := Nat.div_add_mod k 64
  have hx : (if i + k / 64 < A.length then (wordAt A (i + k / 64)).toNat / 2 ^ (k % 64) else 0)
      = (wordAt A (i + k / 64)).toNat / 2 ^ (k % 64) := by
    split
    · rfl
    · next h => rw [wordAt_of_le (by omega)]; simp
  have hlow : (wordAt A (i + k / 64)).toNat / 2 ^ (k % 64) < 2 ^ (64 - k % 64) := by
    rw [Nat.div_lt_iff_lt_mul (Nat.two_pow_pos _), ← pow_add, Nat.sub_add_cancel hbs.le]
    exact (wordAt A _).isLt
  simp only [shrWord, hx]
  split
  · next hb =>
    rw [Nat.add_comm ((wordAt A (i + k / 64)).toNat / 2 ^ (k % 64)), BitVec.toNat_ofNat,
      Nat.mod_eq_of_lt (join_lt (by omega) hlow), testBit_join (by omega) hlow, testBit_val]
    split
    · next hr' =>
      have e1 : (64 * i + r + k) / 64 = i + k / 64 := by omega
      have e2 : (64 * i + r + k) % 64 = r + k % 64 := by omega
      rw [Nat.testBit_div_two_pow, e1, e2]
    · next hr' =>
      have e1 : (64 * i + r + k) / 64 = i + k / 64 + 1 := by omega
      have e2 : (64 * i + r + k) % 64 = r - (64 - k % 64) := by omega
      rw [e1, e2]
      simp [hr]
  · next hb =>
    have h64 : (wordAt A (i + k / 64)).toNat / 2 ^ (k % 64) < 2 ^ 64 :=
      lt_of_lt_of_le hlow (Nat.pow_le_pow_right (by decide) (by omega))
    rw [BitVec.toNat_ofNat, Nat.mod_eq_of_lt h64, Nat.testBit_div_two_pow, testBit_val]
    by_cases hr' : r + k % 64 < 64
    · have e1 : (64 * i + r + k) / 64 = i + k / 64 := by omega
      have e2 : (64 * i + r + k) % 64 = r + k % 64 := by omega
      rw [e1, e2]
    · have e1 : (64 * i + r + k) / 64 = i + k / 64 + 1 := by omega
      have hl : A.length ≤ i + k / 64 + 1 := by omega
      rw [e1, wordAt_of_le hl]
      have : (wordAt A (i + k / 64)).toNat < 2 ^ (r + k % 64) :=
        lt_of_lt_of_le (wordAt A _).isLt (Nat.pow_le_pow_right (by decide) (by omega))
      rw [Nat.testBit_lt_two_pow this]
      simp

/-- The right shift divides (R132). -/
theorem val_shrWide (A : Wide) (k : Nat) : val (shrWide A k) = val A / 2 ^ k := by
  apply Nat.eq_of_testBit_eq
  intro i
  rw [testBit_val, Nat.testBit_div_two_pow]
  show (wordAt ((List.range A.length).map (shrWord A k)) (i / 64)).toNat.testBit (i % 64) = _
  rw [wordAt_range_map]
  have hi := Nat.div_add_mod i 64
  have hr : i % 64 < 64 := Nat.mod_lt _ (by decide)
  split
  · rw [testBit_shrWord _ _ _ _ hr, hi]
  · next h =>
    have : val A < 2 ^ (i + k) :=
      lt_of_lt_of_le (val_lt A) (Nat.pow_le_pow_right (by decide) (by omega))
    rw [Nat.testBit_lt_two_pow this]
    simp

end Sys2Proof.Machine
end

