-- ==== Sys2Proof/Laws/Reduce.lean ====
section
/-!
SUPPORT. The reducer: the invariant of its loop (R151) and its value.
-/
namespace Sys2Proof.Machine

/-- One compare-and-subtract: the remainder modulo a divisor of `d` is kept, and a remainder below
`2 d` falls below `d`. -/
theorem reduceStep_spec {r d : Wide} (h : r.length = d.length) {m : Nat} (hm : m ∣ val d)
    (hr : val r < 2 * val d) :
    (reduceStep r d).length = r.length ∧ val (reduceStep r d) % m = val r % m ∧
    val (reduceStep r d) < val d := by
  rw [reduceStep]
  split
  · next hc =>
    have hle : val d ≤ val r := (cmpWide_nonneg_iff h).mp hc
    have hv := val_subWide_of_le h hle
    refine ⟨(subWide_spec h).1, ?_, by omega⟩
    obtain ⟨q, hq⟩ := hm
    have : val r = (val r - val d) + m * q := by omega
    rw [hv, this, Nat.add_mul_mod_self_left]
    congr 1
    omega
  · next hc =>
    have hlt : ¬ val d ≤ val r := fun hle => hc ((cmpWide_nonneg_iff h).mpr hle)
    exact ⟨rfl, rfl, by omega⟩

/-- The loop invariant of R151: from a remainder below twice the aligned modulus, the loop ends with
the remainder modulo the modulus. -/
theorem reduceLoop_spec {m : Nat} (sh : Nat) {r d : Wide} (h : r.length = d.length)
    (hd : val d = m * 2 ^ sh) (hr : val r < 2 * val d) :
    (reduceLoop sh r d).length = r.length ∧ val (reduceLoop sh r d) = val r % m := by
  induction sh generalizing r d with
  | zero =>
    have hd' : val d = m := by simpa using hd
    obtain ⟨h1, h2, h3⟩ := reduceStep_spec h (m := m) (by rw [hd']) hr
    refine ⟨h1, ?_⟩
    rw [← h2]
    exact (Nat.mod_eq_of_lt (by rw [← hd']; exact h3)).symm
  | succ sh ih =>
    obtain ⟨h1, h2, h3⟩ := reduceStep_spec h (m := m) (by rw [hd]; exact dvd_mul_right _ _) hr
    have hd2 : val (shrWide d 1) = m * 2 ^ sh := by
      rw [val_shrWide, hd, pow_succ, ← Nat.mul_assoc, pow_one, Nat.mul_div_cancel _ (by decide)]
    have hr2 : val (reduceStep r d) < 2 * val (shrWide d 1) := by
      rw [hd2]; rw [hd, pow_succ] at h3; rw [Nat.mul_comm 2, Nat.mul_assoc]; exact h3
    obtain ⟨k1, k2⟩ := ih (r := reduceStep r d) (d := shrWide d 1) (by simp [h1, h]) hd2 hr2
    exact ⟨k1.trans h1, k2.trans h2⟩

/-- `reduce_L` (R150, R151): `N` words, and the remainder. -/
theorem reduceWide_spec {N : Nat} {A M : Wide} (hM : M.length = N) (hN : N ≤ A.length)
    (hm : 0 < val M) :
    (reduceWide N A M).length = N ∧ val (reduceWide N A M) = val A % val M := by
  have hz : val (zext A.length M) = val M := val_zext
  have hl : (zext A.length M).length = A.length := length_zext (by omega)
  have hMN : val M < 2 ^ (64 * N) := hM ▸ val_lt M
  have hb : bitlen (zext A.length M) = bitlen M := bitlen_congr hz
  have hbA := bitlen_spec A
  have hbM := bitlen_spec M
  have hM0 : bitlen M ≠ 0 := fun h => by rw [bitlen_eq_zero_iff] at h; omega
  simp only [reduceWide, hb]
  split
  · next h =>
    have hlt : val A < val M := by
      calc val A < 2 ^ bitlen A := hbA.1
        _ ≤ 2 ^ (bitlen M - 1) := Nat.pow_le_pow_right (by decide) (by omega)
        _ ≤ val M := hbM.2 hM0
    refine ⟨by simp [hN], ?_⟩
    rw [val_take_of_lt (by omega), Nat.mod_eq_of_lt hlt]
  · next h =>
    have hA0 : bitlen A ≠ 0 := by omega
    have hfit : val M * 2 ^ (bitlen A - bitlen M) < 2 ^ bitlen A := by
      calc val M * 2 ^ (bitlen A - bitlen M) < 2 ^ bitlen M * 2 ^ (bitlen A - bitlen M) :=
            Nat.mul_lt_mul_of_pos_right hbM.1 (Nat.two_pow_pos _)
        _ = 2 ^ bitlen A := by rw [← pow_add]; congr 1; omega
    have hd : val (shlWide (zext A.length M) (bitlen A - bitlen M)).1
        = val M * 2 ^ (bitlen A - bitlen M) := by
      rw [val_shlWide_of_lt, hz]
      rw [hz, hl]
      exact lt_of_lt_of_le hfit (Nat.pow_le_pow_right (by decide) (bitlen_le_length A))
    have hr : val A < 2 * val (shlWide (zext A.length M) (bitlen A - bitlen M)).1 := by
      rw [hd]
      calc val A < 2 ^ bitlen A := hbA.1
        _ = 2 * (2 ^ (bitlen M - 1) * 2 ^ (bitlen A - bitlen M)) := by
            rw [← pow_add, ← pow_succ']; congr 1; omega
        _ ≤ 2 * (val M * 2 ^ (bitlen A - bitlen M)) :=
            Nat.mul_le_mul_left _ (Nat.mul_le_mul_right _ (hbM.2 hM0))
    obtain ⟨k1, k2⟩ := reduceLoop_spec (m := val M) (bitlen A - bitlen M) (r := A)
      (d := (shlWide (zext A.length M) (bitlen A - bitlen M)).1) (by simp [hl]) hd hr
    have hlt : val A % val M < val M := Nat.mod_lt _ hm
    refine ⟨by simp [k1, hN], ?_⟩
    rw [val_take_of_lt (by rw [k2]; omega), k2]

end Sys2Proof.Machine
end

