-- ==== Sys2Proof/Laws/Modular.lean ====
section
/-!
SUPPORT. Modular multiplication, exponentiation and inverse: the values of their loops.
-/
namespace Sys2Proof.Machine

/-- One partial product is exact in `N + 1` words: neither the shift nor the sum can lose a bit
(R160). -/
theorem partialProduct_spec (A : Wide) (b : Word) :
    (partialProduct A b).length = A.length + 1 ∧ val (partialProduct A b) = val A * b.toNat := by
  have hlo : slice b.toNat 31 0 < 2 ^ 32 := by simp only [slice]; omega
  have hhi : slice b.toNat 63 32 < 2 ^ 32 := by simp only [slice]; omega
  obtain ⟨l1, v1⟩ := mulsWide_spec (A := A) hlo
  obtain ⟨l2, v2⟩ := mulsWide_spec (A := A) hhi
  have hb := b.isLt
  have hA := val_lt A
  have hp : 2 ^ (64 * (A.length + 1)) = 2 ^ (64 * A.length) * 2 ^ 64 := by rw [← pow_add]; ring_nf
  have hall : val A * b.toNat < 2 ^ (64 * (A.length + 1)) := by
    rw [hp]; exact Nat.mul_lt_mul_of_lt_of_lt hA hb
  have hsum : val A * slice b.toNat 31 0 + val A * slice b.toNat 63 32 * 2 ^ 32 = val A * b.toNat := by
    conv_rhs => rw [← slice_halves b]
    ring
  have hs : val (shlWide (mulsWide A (slice b.toNat 63 32)) 32).1
      = val A * slice b.toNat 63 32 * 2 ^ 32 := by
    rw [val_shlWide_of_lt, v2]
    rw [v2, l2]
    omega
  have hlen : (mulsWide A (slice b.toNat 31 0)).length
      = (shlWide (mulsWide A (slice b.toNat 63 32)) 32).1.length := by simp [l1, l2]
  refine ⟨(addWide_spec hlen).1.trans l1, ?_⟩
  show val (addWide _ _).1 = _
  rw [val_addWide_of_lt hlen, v1, hs, hsum]
  rw [v1, hs, l1, hsum]
  exact hall

/-- The passes add the rest of the product into the total, exactly (R160, R162). -/
theorem accumulate_spec {T : Nat} {A : Wide} (hT : A.length + 1 ≤ T) (i : Nat) {B total : Wide}
    (ht : total.length = T) (hfit : val total + val A * val B * 2 ^ (64 * i) < 2 ^ (64 * T)) :
    (accumulate T A i B total).length = T ∧
    val (accumulate T A i B total) = val total + val A * val B * 2 ^ (64 * i) := by
  induction B generalizing i total with
  | nil => simp [accumulate, ht]
  | cons b bs ih =>
    obtain ⟨lp, vp⟩ := partialProduct_spec A b
    have hz : (zext T (partialProduct A b)).length = T := length_zext (by omega)
    have hp : 2 ^ (64 * (i + 1)) = 2 ^ 64 * 2 ^ (64 * i) := by rw [← pow_add]; ring_nf
    have hsplit : val A * val (b :: bs) * 2 ^ (64 * i)
        = val A * b.toNat * 2 ^ (64 * i) + val A * val bs * 2 ^ (64 * (i + 1)) := by
      rw [val_cons, hp]; ring
    rw [hsplit] at hfit ⊢
    have hs : val (shlWide (zext T (partialProduct A b)) (64 * i)).1
        = val A * b.toNat * 2 ^ (64 * i) := by
      rw [val_shlWide_of_lt, val_zext, vp]
      rw [val_zext, vp, hz]
      omega
    have hlen : total.length = (shlWide (zext T (partialProduct A b)) (64 * i)).1.length := by
      simp [ht, hz]
    have hadd : val (addWide total (shlWide (zext T (partialProduct A b)) (64 * i)).1).1
        = val total + val A * b.toNat * 2 ^ (64 * i) := by
      rw [val_addWide_of_lt hlen, hs]
      rw [hs, ht]
      omega
    obtain ⟨k1, k2⟩ := ih (i + 1)
      (total := (addWide total (shlWide (zext T (partialProduct A b)) (64 * i)).1).1)
      ((addWide_spec hlen).1.trans ht) (by rw [hadd]; omega)
    exact ⟨k1, by rw [accumulate]; rw [k2, hadd]; omega⟩

/-- `modmul` (R160, R162): `N` words, and the product modulo the modulus. -/
theorem modmulWide_spec {N : Nat} {A B M : Wide} (hA : A.length = N) (hB : B.length = N)
    (hM : M.length = N) (hm : 0 < val M) :
    (modmulWide N A B M).length = N ∧ val (modmulWide N A B M) = val A * val B % val M := by
  have hN : 1 ≤ N := by
    rcases Nat.eq_zero_or_pos N with h0 | h0
    · rw [h0] at hM; rw [List.length_eq_zero_iff.mp hM] at hm; simp at hm
    · exact h0
  have hfit : val (List.replicate (2 * N) 0) + val A * val B * 2 ^ (64 * 0) < 2 ^ (64 * (2 * N)) := by
    have hp : 2 ^ (64 * (2 * N)) = 2 ^ (64 * N) * 2 ^ (64 * N) := by rw [← pow_add]; ring_nf
    have h1 := val_lt A
    have h2 := val_lt B
    rw [hA] at h1
    rw [hB] at h2
    rw [val_zeros, hp]
    simpa using Nat.mul_lt_mul_of_lt_of_lt h1 h2
  obtain ⟨l, v⟩ := accumulate_spec (T := 2 * N) (A := A) (by omega) 0 (B := B)
    (total := List.replicate (2 * N) 0) (by simp) hfit
  rw [val_zeros] at v
  obtain ⟨k1, k2⟩ := reduceWide_spec (A := accumulate (2 * N) A 0 B (List.replicate (2 * N) 0)) hM
    (by omega) hm
  refine ⟨k1, ?_⟩
  rw [modmulWide, k2, v]
  simp

/-- The least significant bit of a vector is its value modulo 2 (R170's `e[0][0]`). -/
theorem lowBit_eq (E : Wide) : slice (wordAt E 0).toNat 0 0 = val E % 2 := by
  cases E with
  | nil => rfl
  | cons e es =>
    rw [val_cons]
    simp only [slice, wordAt, List.getD_cons_zero]
    omega

/-- The exponentiation loop (R170, R172), with enough fuel for the exponent's bits: it returns `res`
for exponent 0 and `res * b^e mod m` for any other. -/
theorem modexpLoop_spec {N : Nat} {M : Wide} (hM : M.length = N) (hm : 0 < val M) (fuel : Nat)
    {res b e : Wide} (hr : res.length = N) (hb : b.length = N) (hf : bitlen e ≤ fuel) :
    (modexpLoop N M fuel res b e).length = N ∧
    (val e = 0 → modexpLoop N M fuel res b e = res) ∧
    (val e ≠ 0 → val (modexpLoop N M fuel res b e) = val res * val b ^ val e % val M) := by
  induction fuel generalizing res b e with
  | zero =>
    have h0 : val e = 0 := (bitlen_eq_zero_iff e).mp (by omega)
    exact ⟨hr, fun _ => rfl, fun h => absurd h0 h⟩
  | succ fuel ih =>
    rw [modexpLoop]
    split
    · next hpos =>
      have hne : val e ≠ 0 := fun h => by rw [← bitlen_eq_zero_iff] at h; omega
      obtain ⟨lb, vb⟩ := modmulWide_spec hb hb hM hm
      obtain ⟨lr, vr⟩ := modmulWide_spec hr hb hM hm
      have hv : val (shrWide e 1) = val e / 2 := by rw [val_shrWide, pow_one]
      have hf' : bitlen (shrWide e 1) ≤ fuel := by
        rw [bitlen_le_iff, hv]
        have := (bitlen_le_iff e (fuel + 1)).mp hf
        rw [pow_succ] at this
        omega
      rw [lowBit_eq]
      have hde := Nat.div_add_mod (val e) 2
      have hsq : ∀ k, (val b * val b % val M) ^ k ≡ val b ^ (2 * k) [MOD val M] := fun k => by
        have hpow : (val b * val b) ^ k = val b ^ (2 * k) := by rw [← pow_two, ← pow_mul]
        exact hpow ▸ (Nat.mod_modEq (val b * val b) (val M)).pow k
      by_cases hodd : val e % 2 = 1
      · obtain ⟨k1, k2, k3⟩ := ih lr lb hf'
        simp only [hodd, if_true]
        refine ⟨k1, fun h => absurd h hne, fun _ => ?_⟩
        by_cases hz : val e / 2 = 0
        · rw [k2 (hv.trans hz), vr]
          have : val e = 1 := by omega
          rw [this, pow_one]
        · rw [k3 (by rw [hv]; exact hz), vr, vb, hv]
          have e1 : val e = 2 * (val e / 2) + 1 := by omega
          conv_rhs => rw [e1, pow_succ, Nat.mul_comm (val b ^ _), ← Nat.mul_assoc]
          exact (Nat.mod_modEq _ _).mul (hsq _)
      · obtain ⟨k1, k2, k3⟩ := ih hr lb hf'
        rw [if_neg hodd]
        refine ⟨k1, fun h => absurd h hne, fun _ => ?_⟩
        rw [k3 (by rw [hv]; omega), vb, hv]
        have e1 : val e = 2 * (val e / 2) := by omega
        conv_rhs => rw [e1]
        exact (Nat.ModEq.refl _).mul (hsq _)
    · next hpos =>
      have h0 : val e = 0 := (bitlen_eq_zero_iff e).mp (by omega)
      exact ⟨hr, fun _ => rfl, fun h => absurd h0 h⟩

/-- `modexp` (R170, R172). -/
theorem modexpWide_spec {N : Nat} {Bs E M : Wide} (hB : Bs.length = N) (hM : M.length = N)
    (hm : 0 < val M) :
    (modexpWide N Bs E M).length = N ∧
    (val E = 0 → val (modexpWide N Bs E M) = 1) ∧
    (val E ≠ 0 → val (modexpWide N Bs E M) = val Bs ^ val E % val M) := by
  have hMN : val M < 2 ^ (64 * N) := hM ▸ val_lt M
  have h1 : val (words N 1) = 1 := val_words_of_lt (by omega)
  obtain ⟨k1, k2, k3⟩ := modexpLoop_spec hM hm (64 * E.length) (res := words N 1) (b := Bs) (e := E)
    (length_words N 1) hB (bitlen_le_length E)
  refine ⟨k1, fun h => ?_, fun h => ?_⟩
  · rw [modexpWide, k2 h, h1]
  · rw [modexpWide, k3 h, h1, Nat.one_mul]

/-- The Euclidean loop with enough fuel: the gcd, and a coefficient of `a` for it (R183). -/
theorem euclid_spec {m a : Int} (fuel : Nat) {r0 r1 : Nat} {t0 t1 : Int} (hf : r1 ≤ fuel)
    (h0 : t0 * a ≡ r0 [ZMOD m]) (h1 : t1 * a ≡ r1 [ZMOD m]) :
    (euclid fuel r0 r1 t0 t1).1 = Nat.gcd r0 r1 ∧
    (euclid fuel r0 r1 t0 t1).2 * a ≡ (euclid fuel r0 r1 t0 t1).1 [ZMOD m] := by
  induction fuel generalizing r0 r1 t0 t1 with
  | zero =>
    have : r1 = 0 := by omega
    subst this
    exact ⟨by simp [euclid], h0⟩
  | succ fuel ih =>
    rw [euclid]
    split
    · next h => subst h; exact ⟨by simp, h0⟩
    · next h =>
      have hlt : r0 % r1 < r1 := Nat.mod_lt _ (by omega)
      have h2 : (t0 - (r0 / r1 : Nat) * t1) * a ≡ (r0 % r1 : Nat) [ZMOD m] := by
        have e1 : (t0 - (r0 / r1 : Nat) * t1) * a = t0 * a - (r0 / r1 : Nat) * (t1 * a) := by ring
        have e2 : ((r0 % r1 : Nat) : Int) = r0 - (r0 / r1 : Nat) * (r1 : Int) := by
          have := Nat.div_add_mod r0 r1
          have : (r0 : Int) = (r1 : Int) * (r0 / r1 : Nat) + (r0 % r1 : Nat) := by exact_mod_cast this.symm
          linarith [mul_comm (r1 : Int) ((r0 / r1 : Nat) : Int)]
        rw [e1, e2]
        exact h0.sub ((Int.ModEq.refl _).mul h1)
      obtain ⟨k1, k2⟩ := ih (r0 := r1) (r1 := r0 % r1) (t0 := t1) (by omega) h1 h2
      exact ⟨by rw [k1, Nat.gcd_comm r1, ← Nat.gcd_rec, Nat.gcd_comm], k2⟩

/-- `modinv` (R180): no inverse exactly when the gcd is not 1, and otherwise the inverse below the
modulus. -/
theorem modinvWide_spec {N : Nat} {A M : Wide} (hM : M.length = N) (hm : 0 < val M) :
    (Nat.gcd (val A) (val M) ≠ 1 → modinvWide N A M = none) ∧
    (Nat.gcd (val A) (val M) = 1 → ∃ X, modinvWide N A M = some X ∧ X.length = N ∧
      val X < val M ∧ val A * val X % val M = 1 % val M) := by
  have hMN : val M < 2 ^ (64 * N) := hM ▸ val_lt M
  have ha : (1 : Int) * val A ≡ (val A % val M : Nat) [ZMOD val M] := by
    rw [one_mul, Int.natCast_mod]; exact (Int.mod_modEq _ _).symm
  have hz : (0 : Int) * val A ≡ (val M : Nat) [ZMOD val M] := by
    rw [zero_mul]; exact (Int.modEq_zero_iff_dvd.mpr dvd_rfl).symm
  obtain ⟨g1, g2⟩ := euclid_spec (m := val M) (a := val A) (val M) (r0 := val M)
    (r1 := val A % val M) (Nat.mod_lt _ hm).le hz ha
  have hg : (euclid (val M) (val M) (val A % val M) 0 1).1 = Nat.gcd (val A) (val M) := by
    rw [g1, Nat.gcd_comm (val M), ← Nat.gcd_rec, Nat.gcd_comm]
  rw [hg] at g2
  constructor
  · intro h
    simp only [modinvWide]
    rw [if_neg (by rw [hg]; exact h)]
  · intro h
    have hm' : (0 : Int) < val M := by exact_mod_cast hm
    have hx0 := Int.emod_nonneg (euclid (val M) (val M) (val A % val M) 0 1).2 hm'.ne'
    have hx1 := Int.emod_lt_of_pos (euclid (val M) (val M) (val A % val M) 0 1).2 hm'
    have hX : val (words N ((euclid (val M) (val M) (val A % val M) 0 1).2 % (val M : Int)).toNat)
        = ((euclid (val M) (val M) (val A % val M) 0 1).2 % (val M : Int)).toNat :=
      val_words_of_lt (by omega)
    refine ⟨words N ((euclid (val M) (val M) (val A % val M) 0 1).2 % (val M : Int)).toNat, ?_,
      length_words _ _, by omega, ?_⟩
    · simp only [modinvWide]
      rw [if_pos (by rw [hg]; exact h)]
    · rw [hX]
      apply Nat.ModEq.symm
      rw [← Int.natCast_modEq_iff, Nat.cast_mul, Int.toNat_of_nonneg hx0, mul_comm]
      refine Int.ModEq.symm ((((Int.mod_modEq _ _).mul_right _)).trans ?_)
      rw [h] at g2
      exact g2

end Sys2Proof.Machine
end

