-- ==== Sys2Proof/Laws/Exec.lean ====
section
/-!
SUPPORT. What the completion of any command can do, said once: the two ways it ends and what each
leaves unchanged.
-/
namespace Sys2Proof.Machine

/-- The ways a decoded command ends (R36, R206): an error completion that changes STATUS alone, or a
normal one that writes at most the destination register, XW (MULS only) and LEN (BITLEN only), with
the invariant's part about STATUS and LEN, and with the register lengths kept. -/
inductive Ends (i : Instr) (s : State) : State → Prop
  | byError (e : Error) (he : e = .aliasError ∨ e = .domainError ∨ e = .noInverseError) :
      Ends i s (raise e s)
  | normally (regs : Vector Wide 16) (xw len : Word) (q : Status)
      (hbusy : q.busy = false) (herr : q.err = 0) (hcmp : q.cmp ≠ 0b10)
      (hregs : ∀ r : Reg, dest i ≠ some r → regs[r] = s.regs[r])
      (hlen : s.Inv → ∀ r : Reg, regs[r].length = s.n)
      (hxw : (∀ rd rs1 imm, i ≠ .muls rd rs1 imm) → xw = s.xw)
      (hlr : (∀ rs1, i ≠ .bitlen rs1) → len = s.len)
      (hle : s.Inv → len.toNat ≤ 64 * s.n) :
      Ends i s { s with regs := regs, xw := xw, len := len, status := q }

/-- A normal end that writes one wide register and nothing else but STATUS. -/
theorem Ends.wrote {i : Instr} {s : State} {rd : Reg} {X : Wide} {q : Status} (hd : dest i = some rd)
    (hX : s.Inv → X.length = s.n) (hbusy : q.busy = false) (herr : q.err = 0) (hcmp : q.cmp ≠ 0b10) :
    Ends i s (complete q (s.setReg rd X)) := by
  refine .normally (s.regs.set rd X) s.xw s.len q hbusy herr hcmp ?_ ?_ (fun _ => rfl) (fun _ => rfl)
    (fun h => h.len_le)
  · intro r hr
    have hne : rd ≠ r := fun h => hr (by rw [hd, h])
    exact reg_setReg_ne s X hne
  · intro h r
    by_cases hr : rd = r
    · subst hr
      have := reg_setReg_same s rd X
      exact (congrArg List.length this).trans (hX h)
    · have := reg_setReg_ne s X hr
      exact (congrArg List.length this).trans (h.reg_length r)

theorem cmpCode_ne (k : Int) : cmpCode k ≠ 0b10 := by
  simp only [cmpCode]
  split
  · decide
  · split <;> decide

/-- Every command ends, in one of the two ways (R38, R209). -/
theorem exec_ends (i : Instr) (s : State) : ∃ t, exec i s = .next t ∧ Ends i s t := by
  cases i with
  | add rd rs1 rs2 =>
    refine ⟨_, rfl, ?_⟩
    split
    · exact .byError _ (.inl rfl)
    · refine .wrote rfl (fun h => ?_) rfl rfl (by simp [addStatus, normalStatus])
      exact (addWide_spec ((h.reg_length rs1).trans (h.reg_length rs2).symm)).1.trans (h.reg_length rs1)
  | sub rd rs1 rs2 =>
    refine ⟨_, rfl, ?_⟩
    split
    · exact .byError _ (.inl rfl)
    · refine .wrote rfl (fun h => ?_) rfl rfl (by simp [subStatus, normalStatus])
      exact (subWide_spec ((h.reg_length rs1).trans (h.reg_length rs2).symm)).1.trans (h.reg_length rs1)
  | muls rd rs1 imm =>
    refine ⟨_, rfl, ?_⟩
    split
    · exact .byError _ (.inl rfl)
    · refine .normally (s.regs.set rd _) _ s.len _ rfl rfl (by simp [mulsStatus, normalStatus]) ?_ ?_
        (fun h => absurd rfl (h rd rs1 imm)) (fun _ => rfl) (fun h => h.len_le)
      · intro r hr
        have hne : rd ≠ r := fun h => hr (by rw [h]; rfl)
        exact reg_setReg_ne s _ hne
      · intro h r
        by_cases hr : rd = r
        · subst hr
          have := reg_setReg_same s rd ((mulsWide (s.reg rs1) imm).take s.n)
          refine (congrArg List.length this).trans ?_
          have hl : (mulsWide (s.reg rs1) imm).length = (s.reg rs1).length + 1 := length_mulsFrom _ _ _
          rw [List.length_take, hl, h.reg_length rs1]
          omega
        · have := reg_setReg_ne s ((mulsWide (s.reg rs1) imm).take s.n) hr
          exact (congrArg List.length this).trans (h.reg_length r)
  | shl rd rs1 imm =>
    exact ⟨_, rfl, .wrote rfl (fun h => by simp [h.reg_length rs1]) rfl rfl
      (by simp [shlStatus, normalStatus])⟩
  | shr rd rs1 imm =>
    exact ⟨_, rfl, .wrote rfl (fun h => by simp [h.reg_length rs1]) rfl rfl (by decide)⟩
  | bitlen rs1 =>
    refine ⟨_, rfl, .normally s.regs s.xw _ _ rfl rfl (by decide) (fun _ _ => rfl)
      (fun h => h.reg_length) (fun _ => rfl) (fun h => absurd rfl (h rs1)) (fun h => ?_)⟩
    have h1 := bitlen_le_length (s.reg rs1)
    rw [h.reg_length rs1] at h1
    rw [BitVec.toNat_ofNat]
    exact (Nat.mod_le _ _).trans h1
  | cmp rs1 rs2 =>
    exact ⟨_, rfl, .normally s.regs s.xw s.len _ rfl rfl (cmpCode_ne _) (fun _ _ => rfl)
      (fun h => h.reg_length) (fun _ => rfl) (fun _ => rfl) (fun h => h.len_le)⟩
  | reduce rd rs1 rm =>
    refine ⟨_, rfl, ?_⟩
    split
    · exact .byError _ (.inl rfl)
    · split
      · exact .byError _ (.inr (.inl rfl))
      · next hz =>
        refine .wrote rfl (fun h => ?_) rfl rfl (by decide)
        have hm := Nat.pos_of_ne_zero ((isZero_false_iff _).mp (Bool.not_eq_true _ ▸ hz))
        exact (reduceWide_spec (h.reg_length rm) (h.reg_length rs1).ge hm).1
  | reducex rd rs1 rm =>
    refine ⟨_, rfl, ?_⟩
    split
    · exact .byError _ (.inl rfl)
    · split
      · exact .byError _ (.inr (.inl rfl))
      · next hz =>
        refine .wrote rfl (fun h => ?_) rfl rfl (by decide)
        have hm := Nat.pos_of_ne_zero ((isZero_false_iff _).mp (Bool.not_eq_true _ ▸ hz))
        refine (reduceWide_spec (h.reg_length rm) ?_ hm).1
        simp [extendedDividend, h.reg_length rs1]
  | modmul rd rs1 rs2 rm =>
    refine ⟨_, rfl, ?_⟩
    split
    · exact .byError _ (.inl rfl)
    · split
      · exact .byError _ (.inr (.inl rfl))
      · next hz =>
        refine .wrote rfl (fun h => ?_) rfl rfl (by decide)
        have hm := Nat.pos_of_ne_zero ((isZero_false_iff _).mp (Bool.not_eq_true _ ▸ hz))
        exact (modmulWide_spec (h.reg_length rs1) (h.reg_length rs2) (h.reg_length rm) hm).1
  | modexp rd rs1 rs2 rm =>
    refine ⟨_, rfl, ?_⟩
    split
    · exact .byError _ (.inl rfl)
    · split
      · exact .byError _ (.inr (.inl rfl))
      · next hz =>
        refine .wrote rfl (fun h => ?_) rfl rfl (by decide)
        have hm := Nat.pos_of_ne_zero ((isZero_false_iff _).mp (Bool.not_eq_true _ ▸ hz))
        exact (modexpWide_spec (h.reg_length rs1) (h.reg_length rm) hm).1
  | modinv rd rs1 rm =>
    refine ⟨_, rfl, ?_⟩
    split
    · exact .byError _ (.inl rfl)
    · split
      · exact .byError _ (.inr (.inl rfl))
      · next hz =>
        split
        · exact .byError _ (.inr (.inr rfl))
        · next X hX =>
          refine .wrote rfl (fun h => ?_) rfl rfl (by decide)
          have hm := Nat.pos_of_ne_zero ((isZero_false_iff _).mp (Bool.not_eq_true _ ▸ hz))
          obtain ⟨h1, h2⟩ := modinvWide_spec (A := s.reg rs1) (h.reg_length rm) hm
          by_cases hg : Nat.gcd (val (s.reg rs1)) (val (s.reg rm)) = 1
          · obtain ⟨Y, hY, hl, -⟩ := h2 hg
            rw [hX] at hY
            exact Option.some.inj hY ▸ hl
          · rw [h1 hg] at hX
            exact absurd hX (by simp)

/-- An end reached by `exec`. -/
theorem ends_of_exec {i : Instr} {s t : State} (h : exec i s = .next t) : Ends i s t := by
  obtain ⟨u, hu, he⟩ := exec_ends i s
  rw [h] at hu
  injection hu with hu
  exact hu ▸ he

/-- The host's side and the model's own counters pass through a command untouched. -/
theorem exec_outside {i : Instr} {s t : State} (h : exec i s = .next t) (host : List HostAction)
    (replies : List Word) (delay fresh : Nat) :
    exec i { s with host := host, replies := replies, delay := delay, fresh := fresh } =
      .next { t with host := host, replies := replies, delay := delay, fresh := fresh } := by
  have hr : ∀ r, State.reg { s with host := host, replies := replies, delay := delay, fresh := fresh } r
      = s.reg r := fun _ => rfl
  cases i with
  | add | sub | muls =>
    simp only [exec, execAdd, execSub, execMuls, Host.Outcome.next.injEq, hr] at h ⊢
    subst h
    split <;> rfl
  | shl | shr | bitlen | cmp =>
    simp only [exec, execShl, execShr, execBitlen, execCmp, Host.Outcome.next.injEq] at h ⊢
    subst h
    rfl
  | reduce _ _ rm | reducex _ _ rm | modmul _ _ _ rm | modexp _ _ _ rm =>
    simp only [exec, execReduce, execReducex, execModmul, execModexp, extendedDividend,
      Host.Outcome.next.injEq, hr] at h ⊢
    subst h
    split
    · rfl
    · split <;> rfl
  | modinv rd rs1 rm =>
    simp only [exec, execModinv, Host.Outcome.next.injEq, hr] at h ⊢
    subst h
    split
    · rfl
    · split
      · rfl
      · split <;> rfl

/-- No command reads STATUS (R27). -/
theorem exec_anyStatus (i : Instr) (s : State) (q : Status) :
    exec i { s with status := q } = exec i s := by
  cases i <;> rfl

/-- No command reads LEN (R24). -/
theorem exec_anyLen {i : Instr} {s t : State} (h : exec i s = .next t) (x : Word) :
    ∃ y, exec i { s with len := x } = .next { t with len := y } := by
  have hr : ∀ r, State.reg { s with len := x } r = s.reg r := fun _ => rfl
  cases i with
  | add | sub | muls =>
    simp only [exec, execAdd, execSub, execMuls, Host.Outcome.next.injEq, hr] at h ⊢
    subst h
    refine ⟨x, ?_⟩
    split <;> rfl
  | shl | shr | cmp =>
    simp only [exec, execShl, execShr, execCmp, Host.Outcome.next.injEq] at h ⊢
    subst h
    exact ⟨x, rfl⟩
  | bitlen =>
    simp only [exec, execBitlen, Host.Outcome.next.injEq] at h ⊢
    subst h
    exact ⟨_, rfl⟩
  | reduce _ _ rm | reducex _ _ rm | modmul _ _ _ rm | modexp _ _ _ rm =>
    simp only [exec, execReduce, execReducex, execModmul, execModexp, extendedDividend,
      Host.Outcome.next.injEq, hr] at h ⊢
    subst h
    refine ⟨x, ?_⟩
    split
    · rfl
    · split <;> rfl
  | modinv rd rs1 rm =>
    simp only [exec, execModinv, Host.Outcome.next.injEq, hr] at h ⊢
    subst h
    refine ⟨x, ?_⟩
    split
    · rfl
    · split
      · rfl
      · split <;> rfl

/-- REDUCEX alone reads XW (R23). -/
theorem exec_anyXw {i : Instr} {s t : State} (hx : ∀ rd rs1 rm, i ≠ .reducex rd rs1 rm)
    (h : exec i s = .next t) (x : Word) :
    ∃ y, exec i { s with xw := x } = .next { t with xw := y } := by
  have hr : ∀ r, State.reg { s with xw := x } r = s.reg r := fun _ => rfl
  cases i with
  | reducex => exact absurd rfl (hx _ _ _)
  | add | sub =>
    simp only [exec, execAdd, execSub, Host.Outcome.next.injEq, hr] at h ⊢
    subst h
    refine ⟨x, ?_⟩
    split <;> rfl
  | muls =>
    simp only [exec, execMuls, Host.Outcome.next.injEq, hr] at h ⊢
    subst h
    split
    · exact ⟨x, rfl⟩
    · exact ⟨_, rfl⟩
  | shl | shr | cmp | bitlen =>
    simp only [exec, execShl, execShr, execCmp, execBitlen, Host.Outcome.next.injEq] at h ⊢
    subst h
    exact ⟨x, rfl⟩
  | reduce _ _ rm | modmul _ _ _ rm | modexp _ _ _ rm =>
    simp only [exec, execReduce, execModmul, execModexp, Host.Outcome.next.injEq, hr] at h ⊢
    subst h
    refine ⟨x, ?_⟩
    split
    · rfl
    · split <;> rfl
  | modinv rd rs1 rm =>
    simp only [exec, execModinv, Host.Outcome.next.injEq, hr] at h ⊢
    subst h
    refine ⟨x, ?_⟩
    split
    · rfl
    · split
      · rfl
      · split <;> rfl

end Sys2Proof.Machine
end

