-- ==== Sys2Proof/Laws/Engine.lean ====
section
/-!
SUPPORT. What one step can do, said once: one lemma per kind of step, and the case split of a step
that answers a next state.
-/
namespace Sys2Proof.Machine

/-- A command word ends, whatever it is (R38, R85). -/
theorem runCommand_next (s : State) : ∃ t, runCommand s = .next t := by
  rw [runCommand]
  split
  · next i _ => obtain ⟨t, ht, -⟩ := exec_ends i s; exact ⟨t, ht⟩
  · exact ⟨_, rfl⟩

/-- The ways the command in `CMD` ends: as an illegal word (R204), or as the decoded command does. -/
theorem runCommand_ends {s t : State} (h : runCommand s = .next t) :
    (∃ e, decode s.cmd = .error e ∧ t = raise .illegalCommand s) ∨
      ∃ i, decode s.cmd = .ok i ∧ exec i s = .next t ∧ Ends i s t := by
  rw [runCommand] at h
  split at h
  · next i hi => exact .inr ⟨i, hi, h, ends_of_exec h⟩
  · next e he =>
    injection h with h
    exact .inl ⟨e, he, h.symm⟩

/-- A completion leaves the engine IDLE and the host's side, CMD, `N` and the model's own counters
unchanged (R36, R206). -/
theorem runCommand_keeps {s t : State} (h : runCommand s = .next t) :
    t.status.busy = false ∧ t.n = s.n ∧ t.cmd = s.cmd ∧ t.host = s.host ∧ t.replies = s.replies ∧
      t.delay = s.delay ∧ t.fresh = s.fresh := by
  obtain ⟨e, -, rfl⟩ | ⟨i, -, -, hE⟩ := runCommand_ends h
  · exact ⟨rfl, rfl, rfl, rfl, rfl, rfl, rfl⟩
  · cases hE with
    | byError => exact ⟨rfl, rfl, rfl, rfl, rfl, rfl, rfl⟩
    | normally _ _ _ _ hb => exact ⟨hb, rfl, rfl, rfl, rfl, rfl, rfl⟩

/-- A completion does not depend on the host's side or on the model's own counters. -/
theorem runCommand_outside {s t : State} (h : runCommand s = .next t) (host : List HostAction)
    (replies : List Word) (delay fresh : Nat) :
    runCommand { s with host := host, replies := replies, delay := delay, fresh := fresh } =
      .next { t with host := host, replies := replies, delay := delay, fresh := fresh } := by
  obtain ⟨e, he, rfl⟩ | ⟨i, hi, hx, -⟩ := runCommand_ends h
  · simp only [runCommand, he]
    rfl
  · simp only [runCommand, hi]
    exact exec_outside hx host replies delay fresh

@[simp] theorem atTurn_n (s : State) : s.atTurn.n = s.n := by rw [State.atTurn]; split <;> rfl
@[simp] theorem atTurn_regs (s : State) : s.atTurn.regs = s.regs := by rw [State.atTurn]; split <;> rfl
@[simp] theorem atTurn_reg (s : State) (i : Reg) : s.atTurn.reg i = s.reg i := by
  rw [State.reg, atTurn_regs, State.reg]
@[simp] theorem atTurn_xw (s : State) : s.atTurn.xw = s.xw := by rw [State.atTurn]; split <;> rfl
@[simp] theorem atTurn_len (s : State) : s.atTurn.len = s.len := by rw [State.atTurn]; split <;> rfl
@[simp] theorem atTurn_cmd (s : State) : s.atTurn.cmd = s.cmd := by rw [State.atTurn]; split <;> rfl
@[simp] theorem atTurn_status (s : State) : s.atTurn.status = s.status := by
  rw [State.atTurn]; split <;> rfl
@[simp] theorem atTurn_replies (s : State) : s.atTurn.replies = s.replies := by
  rw [State.atTurn]; split <;> rfl
@[simp] theorem atTurn_delay (s : State) : s.atTurn.delay = s.delay := by
  rw [State.atTurn]; split <;> rfl
@[simp] theorem atTurn_fresh (s : State) : s.atTurn.fresh = s.fresh := by
  rw [State.atTurn]; split <;> rfl

/-- `rst` overrides everything (R230, R232). -/
theorem step_reset {s : State} {rest : List HostAction} (h : s.host = .reset :: rest) :
    step s = .next (resetEngine { s with host := rest }) := by
  simp only [step, advance, h]

/-- The step in which a command completes. -/
theorem step_due {s : State} (h : s.Due) : step s = runCommand s.atTurn := by
  obtain ⟨hb, hd, hr⟩ := h
  simp only [step, advance, State.atTurn, engineTurn]
  split <;> simp_all

/-- A BUSY step before the completion that performs no access (R58). -/
theorem step_held {s : State} (hb : s.status.busy = true) (hd : s.delay ≠ 0) (hr : s.NoReset)
    (hs : ∀ rest, s.host ≠ .read 0x0002 :: rest) :
    step s = .next { s.atTurn with delay := s.delay - 1 } := by
  simp only [step, advance, State.atTurn, engineTurn]
  split <;> simp_all

/-- A read of STATUS performed while BUSY (R37, R58). -/
theorem step_pollBusy {s : State} {rest : List HostAction} (hb : s.status.busy = true)
    (hd : s.delay ≠ 0) (h : s.host = .read 0x0002 :: rest) :
    step s = .next (performRead 0x0002 { s with host := rest, delay := s.delay - 1 }) := by
  simp [step, advance, h, hb, hd]

/-- An IDLE step in which the host presents no access (R32). -/
theorem step_idle {s : State} (hb : s.status.busy = false)
    (h : s.host = [] ∨ ∃ rest, s.host = .idle :: rest) : step s = .next s.atTurn := by
  rcases h with h | ⟨rest, h⟩ <;> simp [step, advance, engineTurn, State.atTurn, h, hb]

/-- A read performed in the IDLE state (R57). -/
theorem step_read {s : State} {a : Addr} {rest : List HostAction} (hb : s.status.busy = false)
    (h : s.host = .read a :: rest) : step s = .next (performRead a { s with host := rest }) := by
  simp [step, advance, h, hb]

/-- A write performed in the IDLE state (R57). -/
theorem step_write {s : State} {a : Addr} {v : Word} {rest : List HostAction}
    (hb : s.status.busy = false) (h : s.host = .write a v :: rest) :
    step s = .next (busWrite a v { s with host := rest }) := by
  simp [step, advance, h, hb]

/-- The kinds of step. -/
inductive StepKind (s : State) : State → Prop
  | reset (rest : List HostAction) (h : s.host = .reset :: rest) :
      StepKind s (resetEngine { s with host := rest })
  | completion (t : State) (h : s.Due) (ht : runCommand s.atTurn = .next t) : StepKind s t
  | held (hb : s.status.busy = true) (hd : s.delay ≠ 0) (hr : s.NoReset)
      (hs : ∀ rest, s.host ≠ .read 0x0002 :: rest) :
      StepKind s { s.atTurn with delay := s.delay - 1 }
  | pollBusy (rest : List HostAction) (hb : s.status.busy = true) (hd : s.delay ≠ 0)
      (h : s.host = .read 0x0002 :: rest) :
      StepKind s (performRead 0x0002 { s with host := rest, delay := s.delay - 1 })
  | idle (hb : s.status.busy = false) (h : s.host = [] ∨ ∃ rest, s.host = .idle :: rest) :
      StepKind s s.atTurn
  | read (a : Addr) (rest : List HostAction) (hb : s.status.busy = false)
      (h : s.host = .read a :: rest) : StepKind s (performRead a { s with host := rest })
  | write (a : Addr) (v : Word) (rest : List HostAction) (hb : s.status.busy = false)
      (h : s.host = .write a v :: rest) : StepKind s (busWrite a v { s with host := rest })

/-- Every step of every state answers a next state of one of these kinds. -/
theorem step_kind (s : State) : ∃ t, step s = .next t ∧ StepKind s t := by
  by_cases hr : s.NoReset
  · by_cases hb : s.status.busy = true
    · by_cases hd : s.delay = 0
      · obtain ⟨t, ht⟩ := runCommand_next s.atTurn
        have hdue : s.Due := ⟨hb, hd, hr⟩
        exact ⟨t, (step_due hdue).trans ht, .completion t hdue ht⟩
      · by_cases hs : ∃ rest, s.host = .read 0x0002 :: rest
        · obtain ⟨rest, h⟩ := hs
          exact ⟨_, step_pollBusy hb hd h, .pollBusy rest hb hd h⟩
        · have hs' : ∀ rest, s.host ≠ .read 0x0002 :: rest := fun rest h => hs ⟨rest, h⟩
          exact ⟨_, step_held hb hd hr hs', .held hb hd hr hs'⟩
    · have hb' : s.status.busy = false := by simpa using hb
      rcases hh : s.host with _ | ⟨a, rest⟩
      · exact ⟨_, step_idle hb' (.inl hh), .idle hb' (.inl hh)⟩
      · cases a with
        | idle => exact ⟨_, step_idle hb' (.inr ⟨rest, hh⟩), .idle hb' (.inr ⟨rest, hh⟩)⟩
        | read a => exact ⟨_, step_read hb' hh, .read a rest hb' hh⟩
        | write a v => exact ⟨_, step_write hb' hh, .write a v rest hb' hh⟩
        | reset => exact absurd (by rw [hh]; rfl) hr
  · rcases hh : s.host with _ | ⟨a, rest⟩
    · simp [hh] at hr
    · have : a = .reset := by simpa [hh] using hr
      subst this
      exact ⟨_, step_reset hh, .reset rest hh⟩

/-- The kind of a given step. -/
theorem kind_of_step {s t : State} (h : step s = .next t) : StepKind s t := by
  obtain ⟨u, hu, hk⟩ := step_kind s
  rw [h] at hu
  injection hu with hu
  exact hu ▸ hk

end Sys2Proof.Machine
end

