-- ==== Sys2Proof/Tests/Slice0.lean ====
section
/-!
SUPPORT. Our own tests: the well-formedness smoke, words of the spec decoded, one step per vector of
the spec's 95, and for each statement a state and operands that meet its hypotheses.
-/
set_option maxRecDepth 20000

namespace Sys2Proof.Tests
open Sys2Proof.Machine Sys2Proof.Statements

/-! ## Well-formedness: an immediate that does not fit is refused -/

theorem test_wellFormed_muls : ¬ (Instr.muls 2 1 0x100000000).WellFormed := by decide
theorem test_wellFormed_shl : ¬ (Instr.shl 2 1 0x100000000).WellFormed := by decide
theorem test_wellFormed_shr : ¬ (Instr.shr 2 1 0x100000000).WellFormed := by decide
theorem test_wellFormed_largest : (Instr.shr 2 1 0xFFFFFFFF).WellFormed := by decide

/-! ## Decoding, one word for each command, built from the fields of R81 and the opcodes of R84
(the words are those of R87 and of the spec's 95) -/

theorem test_decode_add : decode 0x0000000000021301 = .ok (.add 3 1 2) := by decide
theorem test_decode_sub : decode 0x0000000000021302 = .ok (.sub 3 1 2) := by decide
theorem test_decode_muls : decode 0xDEADBEEF00001203 = .ok (.muls 2 1 0xDEADBEEF) := by decide
theorem test_decode_shl : decode 0x0000004100002204 = .ok (.shl 2 2 65) := by decide
theorem test_decode_shr : decode 0xFFFFFFFF00001205 = .ok (.shr 2 1 0xFFFFFFFF) := by decide
theorem test_decode_bitlen : decode 0x0000000000005006 = .ok (.bitlen 5) := by decide
theorem test_decode_cmp : decode 0x0000000000021007 = .ok (.cmp 1 2) := by decide
theorem test_decode_reduce : decode 0x0000000000F01208 = .ok (.reduce 2 1 15) := by decide
theorem test_decode_reducex : decode 0x0000000000F01209 = .ok (.reducex 2 1 15) := by decide
theorem test_decode_modmul : decode 0x0000000000F2130A = .ok (.modmul 3 1 2 15) := by decide
theorem test_decode_modexp : decode 0x0000000000F2140B = .ok (.modexp 4 1 2 15) := by decide
theorem test_decode_modinv : decode 0x0000000000F0120C = .ok (.modinv 2 1 15) := by decide

/-- The illegal words F1 to F11 of the spec's 95, one for each must-be-zero field. -/
theorem test_decode_illegal :
    ([0x0, 0x0D, 0xFF, 0x121301, 0x1021301, 0x100021301, 0x100011204, 0x5106, 0x21307, 0xF41208,
      0x8000000000F2130A] : List Word).all (fun c => (decode c).toOption.isNone) = true := by decide

theorem test_decodeTableWord : decodeTableWord 64 0x21301 = some (.add 3 1 2) := by decide

/-! ## A small machine: `N = 2`, a command due -/

/-- Registers `r1` (also in `r5`), `r2` and `r15` as given, `0xAAAA` in the destinations `r3`, `r4`
and zero elsewhere. -/
def file (r1 r2 r15 : Wide) : Vector Wide 16 :=
  ⟨#[[0, 0], r1, r2, [0xAAAA, 0], [0xAAAA, 0], r1, [0, 0], [0, 0],
     [0, 0], [0, 0], [0, 0], [0, 0], [0, 0], [0, 0], [0, 0], r15], rfl⟩

/-- A BUSY machine whose command `c` completes in the coming step; STATUS holds flags of an earlier
command. -/
def due (c : Word) (r1 r2 r15 : Wide) (xw : Word := 0x5555) : State :=
  { n := 2, regs := file r1 r2 r15, xw := xw, len := 99, cmd := c
    status := { busy := true, carry := true, borrow := false, ovf := true, cmp := 0b11, err := 0 }
    host := [], replies := [], delay := 0, fresh := 0 }

/-- What a step leaves in a register, XW, LEN and STATUS. -/
def seen (s : State) (r : Reg) : Option (Wide × Word × Word × Word) :=
  match step s with
  | .next t => some (t.reg r, t.xw, t.len, statusWord t.status)
  | .fault _ => none
  | .refused _ => none

/-! ## One step for each command: vectors of the spec's 95, named in the theorem -/

theorem test_add_A2 :
    seen (due 0x21301 [0xFFFFFFFFFFFFFFFF, 0xFFFFFFFFFFFFFFFF] [1, 0] [0, 0]) 3 =
      some ([0, 0], 0x5555, 99, 0x002) := by decide
theorem test_add_A6 :
    seen (due 0x21301 [0xFEDCBA9876543210, 0x0123456789ABCDEF]
      [0x123456789ABCDEF0, 0x0FEDCBA987654321] [0, 0]) 3 =
      some ([0x1111111111111100, 0x1111111111111111], 0x5555, 99, 0x000) := by decide
theorem test_sub_S5 :
    seen (due 0x21302 [0xFEDCBA9876543210, 0x0123456789ABCDEF]
      [0x123456789ABCDEF0, 0x0FEDCBA987654321] [0, 0]) 3 =
      some ([0xECA8641FDB975320, 0xF13579BE02468ACE], 0x5555, 99, 0x004) := by decide
theorem test_sub_S3 :
    seen (due 0x21302 [0, 1] [1, 0] [0, 0]) 3 =
      some ([0xFFFFFFFFFFFFFFFF, 0], 0x5555, 99, 0x000) := by decide
theorem test_muls_M7 :
    seen (due 0xDEADBEEF00001203 [0xFEDCBA9876543210, 0x0123456789ABCDEF] [0, 0] [0, 0]) 2 =
      some ([0x12345678AA929CF0, 0xEDCBA98754700731], 0xFD5BDE, 99, 0x008) := by decide
theorem test_muls_M4 :
    seen (due 0x0000000200001203 [0xFFFFFFFFFFFFFFFF, 0] [0, 0] [0, 0]) 2 =
      some ([0xFFFFFFFFFFFFFFFE, 1], 0, 99, 0x000) := by decide
theorem test_shl_L5 :
    seen (due 0x0000004100001204 [0xC000000000000003, 0x8000000000000001] [0, 0] [0, 0]) 2 =
      some ([0, 0x8000000000000006], 0x5555, 99, 0x008) := by decide
theorem test_shl_L12 :
    seen (due 0x0000002000001204 [0xFFFFFFFFFFFFFFFF, 0x00000000FFFFFFFF] [0, 0] [0, 0]) 2 =
      some ([0xFFFFFFFF00000000, 0xFFFFFFFFFFFFFFFF], 0x5555, 99, 0x000) := by decide
theorem test_shr_H3 :
    seen (due 0x0000003F00001205 [0xC000000000000003, 0x8000000000000001] [0, 0] [0, 0]) 2 =
      some ([3, 1], 0x5555, 99, 0x000) := by decide
theorem test_shr_H8 :
    seen (due 0xFFFFFFFF00001205 [0xC000000000000003, 0x8000000000000001] [0, 0] [0, 0]) 2 =
      some ([0, 0], 0x5555, 99, 0x000) := by decide
theorem test_bitlen_B6 :
    seen (due 0x5006 [5, 1] [0, 0] [0, 0]) 3 = some ([0xAAAA, 0], 0x5555, 65, 0x000) := by decide
theorem test_bitlen_B8 :
    seen (due 0x5006 [0xFFFFFFFFFFFFFFFF, 0xFFFFFFFFFFFFFFFF] [0, 0] [0, 0]) 3 =
      some ([0xAAAA, 0], 0x5555, 128, 0x000) := by decide
theorem test_cmp_C7 :
    seen (due 0x21007 [0, 0x8000000000000000] [0xFFFFFFFFFFFFFFFF, 0x7FFFFFFFFFFFFFFF] [0, 0]) 3 =
      some ([0xAAAA, 0], 0x5555, 99, 0x010) := by decide
theorem test_cmp_C8 :
    seen (due 0x21007 [1, 5] [2, 5] [0, 0]) 3 = some ([0xAAAA, 0], 0x5555, 99, 0x030) := by decide
theorem test_reduce_D9 :
    seen (due 0xF01208 [0xFEDCBA9876543210, 0x0123456789ABCDEF] [0, 0] [0xDEADBEEFCAFEF00D, 0]) 2 =
      some ([0xD094F892FC2126D3, 0], 0x5555, 99, 0x000) := by decide
theorem test_reduce_D7 :
    seen (due 0xF01208 [0xFFFFFFFFFFFFFFFF, 0xFFFFFFFFFFFFFFFF] [0, 0] [0, 0x8000000000000000]) 2 =
      some ([0xFFFFFFFFFFFFFFFF, 0x7FFFFFFFFFFFFFFF], 0x5555, 99, 0x000) := by decide
theorem test_reducex_X6 :
    seen (due 0xF01209 [0xFEDCBA9876543210, 0x0123456789ABCDEF] [0, 0]
      [0xFFFFFFFFFFFFFFFF, 0x7FFFFFFFFFFFFFFF] 0x123) 2 =
      some ([0xFEDCBA9876543456, 0x0123456789ABCDEF], 0x123, 99, 0x000) := by decide
theorem test_reducex_X5 :
    seen (due 0xF01209 [0xFFFFFFFF00000001, 0xFFFFFFFFFFFFFFFF] [0, 0] [0xDEADBEEFCAFEF00D, 0]
      0xFFFFFFFE) 2 =
      some ([0x80AA8D3A5BAEB7D8, 0], 0xFFFFFFFE, 99, 0x000) := by decide
theorem test_modmul_Q4 :
    seen (due 0xF2130A [0xFFFFFFFFFFFFFFFF, 0xFFFFFFFFFFFFFFFF]
      [0xFFFFFFFFFFFFFFFF, 0xFFFFFFFFFFFFFFFF] [0xFFFFFFFFFFFFFF61, 0xFFFFFFFFFFFFFFFF]) 3 =
      some ([0x6184, 0], 0x5555, 99, 0x000) := by decide
theorem test_modmul_Q9 :
    seen (due 0xF2130A [10, 0] [6, 0] [23, 0]) 3 = some ([14, 0], 0x5555, 99, 0x000) := by decide
theorem test_modexp_E8 :
    seen (due 0xF2140B [5, 0] [6, 0] [23, 0]) 4 = some ([8, 0], 0x5555, 99, 0x000) := by decide
theorem test_modexp_E3 :
    seen (due 0xF2140B [5, 0] [0, 0] [1, 0]) 4 = some ([1, 0], 0x5555, 99, 0x000) := by decide
theorem test_modinv_I12 :
    seen (due 0xF0120C [0xFEDCBA9876543210, 0x0123456789ABCDEF] [0xAAAA, 0]
      [0xFFFFFFFFFFFFFFFF, 0x7FFFFFFFFFFFFFFF]) 2 =
      some ([0x0102040810204071, 0x08102040810203F9], 0x5555, 99, 0x000) := by decide
theorem test_modinv_I6 :
    seen (due 0xF0120C [6, 0] [0xAAAA, 0] [9, 0]) 2 =
      some ([0xAAAA, 0], 0x5555, 99, 0x200) := by decide
theorem test_illegal_F1 :
    seen (due 0 [1, 0] [2, 0] [3, 0]) 3 = some ([0xAAAA, 0], 0x5555, 99, 0x500) := by decide
theorem test_inPlace_F12 :
    seen (due 0x21101 [1, 0] [2, 0] [3, 0]) 1 = some ([1, 0], 0x5555, 99, 0x600) := by decide

/-! ## The fixed names -/

/-- A command placed after reset is run by the very next step. -/
theorem test_withFetchWord_runs :
    (match step (State.reset.withFetchWord 64 0xF0120C) with
      | .next t => t.status.busy
      | .fault _ => true
      | .refused _ => true) = false := by
  obtain ⟨t, ht, hk⟩ : ∃ t, step (State.reset.withFetchWord 64 0xF0120C) = .next t ∧
      t.status.busy = false := by
    obtain ⟨t, ht⟩ := runCommand_next (State.reset.withFetchWord 64 0xF0120C).atTurn
    exact ⟨t, (step_due ⟨rfl, rfl, by decide⟩).trans ht, (runCommand_keeps ht).1⟩
  rw [ht]
  exact hk

/-- The bus after a load, as in the spec's program P1: a word written is read back, and the window
ends at `N`. -/
theorem test_bus_window :
    let s := busWrite 0x1101 77 (due 0 [1, 2] [0, 0] [0, 0])
    (busRead s 0x1100, busRead s 0x1101, busRead s 0x1102, busRead s 0x2000) = (1, 77, 0, 0) := by
  decide

/-! ## Witnesses: for each statement with hypotheses, what meets all of them together -/

theorem due_inv (c : Word) {r1 r2 r15 : Wide} (xw : Word) (h1 : r1.length = 2) (h2 : r2.length = 2)
    (h15 : r15.length = 2) : (due c r1 r2 r15 xw).Inv := by
  refine ⟨(by decide : 1 ≤ 2), (by decide : 2 ≤ 256), fun i => ?_,
    (by decide : (99 : Word).toNat ≤ 64 * 2), (by decide : (0b11 : BitVec 2) ≠ 0b10), .inl rfl,
    fun h => absurd rfl h⟩
  fin_cases i <;> first | exact h1 | exact h2 | exact h15 | rfl

/-- ADD r3, r1, r2 due on `r1 = 2^64 + 5`, `r2 = 6`, `r15 = 23`. -/
def demo : State := due 0x21301 [5, 1] [6, 0] [23, 0]
/-- The same with a zero `r15`. -/
def demoZero : State := due 0xF01208 [5, 1] [6, 0] [0, 0]
/-- MODINV r2, r1, r15 due on 6 and 9, which are not coprime. -/
def demoNoInverse : State := due 0xF0120C [6, 0] [0xAAAA, 0] [9, 0]
/-- `demo` IDLE, the host about to do `acts`. -/
def idleDemo (acts : List HostAction) : State := { demo with status := Status.zero, host := acts }
/-- `demo` BUSY for `d` more steps, the host about to do `acts`. -/
def busyDemo (d : Nat) (acts : List HostAction) : State := { demo with delay := d, host := acts }

theorem demo_inv : demo.Inv := due_inv _ _ rfl rfl rfl
theorem demoZero_inv : demoZero.Inv := due_inv _ _ rfl rfl rfl
theorem demoNoInverse_inv : demoNoInverse.Inv := due_inv _ _ rfl rfl rfl
theorem idleDemo_inv (acts : List HostAction) : (idleDemo acts).Inv :=
  ⟨demo_inv.n_pos, demo_inv.n_le, demo_inv.reg_length, demo_inv.len_le,
    (by decide : Status.zero.cmp ≠ 0b10), .inl rfl, fun h => absurd rfl h⟩
theorem due_due (c : Word) (r1 r2 r15 : Wide) (xw : Word) : (due c r1 r2 r15 xw).Due :=
  ⟨rfl, rfl, by simp [due]⟩

theorem witness_DecodeEncodeRoundTrip :
    (Instr.shl 2 2 0xFFFFFFFF).WellFormed ∧ decode 0x21301 = .ok (.add 3 1 2) ∧
    ∃ row ∈ opcodeTable, (0x121301 : Word) &&& 0xFF = row.pattern ∧
      0x121301 &&& row.mask ≠ row.pattern := by decide

theorem witness_OpcodeTableIsTheDecoder :
    ∃ row ∈ opcodeTable, (0x21301 : Word) &&& row.mask = row.pattern := by decide

theorem witness_EncodingIsTheFieldSum : 0 < 2 ^ 32 ∧ 0xFFFFFFFF < 2 ^ 32 := by decide

theorem witness_IllegalWordsOnlyFail :
    field 0 7 0 = 0 ∧ 0x0D ≤ field 0x0D 7 0 ∧ 0x0D ≤ field 0xFF 7 0 ∧
    (∃ row ∈ opcodeTable, (0x100021301 : Word) &&& 0xFF = row.pattern ∧
      0x100021301 &&& row.mask ≠ row.pattern) ∧
    (due 0 [1, 0] [2, 0] [3, 0]).Due ∧ (∃ e, decode 0 = .error e) :=
  ⟨by decide, by decide, by decide, by decide, due_due _ _ _ _ _, _, rfl⟩

/-- The encoding clause of each command's statement: a word of its opcode with the unused fields
zero, and one with the last bit of an unused field set. -/
theorem witness_encodings :
    (field 0x21301 7 0 = 0x01 ∧ field 0x21301 63 20 = 0 ∧
      field 0x8000000000021301 7 0 = 0x01 ∧ field 0x8000000000021301 63 20 ≠ 0) ∧
    (field 0x21302 7 0 = 0x02 ∧ field 0x21302 63 20 = 0 ∧
      field 0x121302 7 0 = 0x02 ∧ field 0x121302 63 20 ≠ 0) ∧
    (field 0xFFFFFFFF00001203 7 0 = 0x03 ∧ field 0xFFFFFFFF00001203 31 16 = 0 ∧
      field 0x80001203 7 0 = 0x03 ∧ field 0x80001203 31 16 ≠ 0) ∧
    (field 0x4100002204 7 0 = 0x04 ∧ field 0x4100002204 31 16 = 0 ∧
      field 0x12204 7 0 = 0x04 ∧ field 0x12204 31 16 ≠ 0) ∧
    (field 0x4100002205 7 0 = 0x05 ∧ field 0x4100002205 31 16 = 0 ∧
      field 0x12205 7 0 = 0x05 ∧ field 0x12205 31 16 ≠ 0) ∧
    (field 0x5006 7 0 = 0x06 ∧ field 0x5006 11 8 = 0 ∧ field 0x5006 63 16 = 0 ∧
      field 0x5106 7 0 = 0x06 ∧ field 0x5106 11 8 ≠ 0 ∧ field 0x15006 63 16 ≠ 0) ∧
    (field 0x21007 7 0 = 0x07 ∧ field 0x21007 11 8 = 0 ∧ field 0x21007 63 20 = 0 ∧
      field 0x21307 7 0 = 0x07 ∧ field 0x21307 11 8 ≠ 0 ∧ field 0x121007 63 20 ≠ 0) ∧
    (field 0xF01208 7 0 = 0x08 ∧ field 0xF01208 19 16 = 0 ∧ field 0xF01208 63 24 = 0 ∧
      field 0xF41208 7 0 = 0x08 ∧ field 0xF41208 19 16 ≠ 0 ∧ field 0x1F01208 63 24 ≠ 0) ∧
    (field 0xF01209 7 0 = 0x09 ∧ field 0xF01209 19 16 = 0 ∧ field 0xF01209 63 24 = 0 ∧
      field 0xF41209 7 0 = 0x09 ∧ field 0xF41209 19 16 ≠ 0 ∧ field 0x1F01209 63 24 ≠ 0) ∧
    (field 0xF2130A 7 0 = 0x0A ∧ field 0xF2130A 63 24 = 0 ∧
      field 0x1F2130A 7 0 = 0x0A ∧ field 0x1F2130A 63 24 ≠ 0) ∧
    (field 0xF2140B 7 0 = 0x0B ∧ field 0xF2140B 63 24 = 0 ∧
      field 0x1F2140B 7 0 = 0x0B ∧ field 0x1F2140B 63 24 ≠ 0) ∧
    (field 0xF0120C 7 0 = 0x0C ∧ field 0xF0120C 19 16 = 0 ∧ field 0xF0120C 63 24 = 0 ∧
      field 0xF4120C 7 0 = 0x0C ∧ field 0xF4120C 19 16 ≠ 0 ∧ field 0x1F0120C 63 24 ≠ 0) := by
  refine ⟨?_, ?_, ?_, ?_, ?_, ?_, ?_, ?_, ?_, ?_, ?_, ?_⟩ <;> decide

theorem witness_AddCommand :
    demo.Inv ∧ ((1 : Reg) = 1 ∨ (1 : Reg) = 2) ∧ ((2 : Reg) = 1 ∨ (2 : Reg) = 2) ∧
    ((3 : Reg) ≠ 1 ∧ (3 : Reg) ≠ 2) := ⟨demo_inv, by decide⟩

theorem witness_SubCommand :
    demo.Inv ∧ ((1 : Reg) = 1 ∨ (1 : Reg) = 2) ∧ ((2 : Reg) = 1 ∨ (2 : Reg) = 2) ∧
    ((3 : Reg) ≠ 1 ∧ (3 : Reg) ≠ 2) := ⟨demo_inv, by decide⟩

theorem witness_MulsCommand :
    demo.Inv ∧ 0xFFFFFFFF < 2 ^ 32 ∧ (1 : Reg) = 1 ∧ (2 : Reg) ≠ 1 := ⟨demo_inv, by decide⟩

theorem witness_ShlCommand : demo.Inv := demo_inv
theorem witness_ShrCommand : demo.Inv := demo_inv

theorem witness_BitlenCommand :
    demo.Inv ∧ val (demo.reg 0) = 0 ∧ val (demo.reg 1) ≠ 0 := ⟨demo_inv, by decide⟩

theorem witness_CmpCommand :
    demo.Inv ∧ val (demo.reg 1) = val (demo.reg 1) ∧ val (demo.reg 2) < val (demo.reg 1) ∧
    val (demo.reg 0) < val (demo.reg 1) := ⟨demo_inv, by decide⟩

theorem witness_ReduceCommand :
    demo.Inv ∧ ((1 : Reg) = 1 ∨ (1 : Reg) = 15) ∧ ((15 : Reg) = 1 ∨ (15 : Reg) = 15) ∧
    ((2 : Reg) ≠ 1 ∧ (2 : Reg) ≠ 15) ∧ val (demo.reg 15) ≠ 0 ∧
    demoZero.Inv ∧ val (demoZero.reg 15) = 0 :=
  ⟨demo_inv, by decide, by decide, by decide, by decide, demoZero_inv, by decide⟩

theorem witness_ReducexCommand :
    demo.Inv ∧ ((1 : Reg) = 1 ∨ (1 : Reg) = 15) ∧ ((15 : Reg) = 1 ∨ (15 : Reg) = 15) ∧
    ((2 : Reg) ≠ 1 ∧ (2 : Reg) ≠ 15) ∧ val (demo.reg 15) ≠ 0 ∧ demo.xw ≠ 0 ∧
    demoZero.Inv ∧ val (demoZero.reg 15) = 0 :=
  ⟨demo_inv, by decide, by decide, by decide, by decide, by decide, demoZero_inv, by decide⟩

theorem witness_ModmulCommand :
    demo.Inv ∧ ((1 : Reg) = 1 ∨ (1 : Reg) = 2 ∨ (1 : Reg) = 15) ∧
    ((3 : Reg) ≠ 1 ∧ (3 : Reg) ≠ 2 ∧ (3 : Reg) ≠ 15) ∧ val (demo.reg 15) ≠ 0 ∧
    demoZero.Inv ∧ val (demoZero.reg 15) = 0 :=
  ⟨demo_inv, by decide, by decide, by decide, demoZero_inv, by decide⟩

theorem witness_ModexpCommand :
    demo.Inv ∧ ((15 : Reg) = 1 ∨ (15 : Reg) = 2 ∨ (15 : Reg) = 15) ∧
    ((4 : Reg) ≠ 1 ∧ (4 : Reg) ≠ 2 ∧ (4 : Reg) ≠ 15) ∧ val (demo.reg 15) ≠ 0 ∧
    val (demo.reg 0) = 0 ∧ val (demo.reg 2) ≠ 0 ∧
    demoZero.Inv ∧ val (demoZero.reg 15) = 0 :=
  ⟨demo_inv, by decide, by decide, by decide, by decide, by decide, demoZero_inv, by decide⟩

theorem witness_ModinvCommand :
    demo.Inv ∧ ((15 : Reg) = 1 ∨ (15 : Reg) = 15) ∧ ((2 : Reg) ≠ 1 ∧ (2 : Reg) ≠ 15) ∧
    val (demo.reg 15) ≠ 0 ∧ Nat.gcd (val (demo.reg 1)) (val (demo.reg 15)) = 1 ∧
    demoZero.Inv ∧ val (demoZero.reg 15) = 0 ∧
    demoNoInverse.Inv ∧ val (demoNoInverse.reg 15) ≠ 0 ∧
    Nat.gcd (val (demoNoInverse.reg 1)) (val (demoNoInverse.reg 15)) ≠ 1 :=
  ⟨demo_inv, by decide, by decide, by decide, by decide, demoZero_inv, by decide,
    demoNoInverse_inv, by decide, by decide⟩

theorem witness_AddSubValues : ([5, 1] : Wide).length = ([6, 0] : Wide).length := rfl

theorem witness_ScalarProductIsExact : 0xFFFFFFFF < 2 ^ 32 := by decide

theorem witness_ShiftValues : 64 * ([5, 1] : Wide).length ≤ 128 := by decide

theorem witness_BitLengthAndOrderValues :
    val [0, 0] = 0 ∧ val [5, 1] ≠ 0 ∧ ([5, 1] : Wide).length = ([6, 0] : Wide).length := by decide

theorem witness_ReductionIsRemainder :
    ([23] : Wide).length = 1 ∧ 1 ≤ ([5, 1] : Wide).length ∧ 0 < val [23] := by decide

theorem witness_ReductionLaws :
    ([23] : Wide).length = 1 ∧ 1 ≤ ([5, 1] : Wide).length ∧ ([5, 1] : Wide).length < 3 ∧
    0 < val [23] := by decide

theorem witness_CompareLaws :
    ([6, 0] : Wide).length = ([5, 1] : Wide).length ∧ bitlen [6, 0] < bitlen [5, 1] := by decide

theorem witness_SubUndoesAdd :
    demo.Inv ∧ (3 : Reg) ≠ 1 ∧ (3 : Reg) ≠ 2 ∧ (4 : Reg) ≠ 3 ∧ (4 : Reg) ≠ 2 :=
  ⟨demo_inv, by decide⟩

/-- The three cases of the first round trip: nothing lost, and a lost bit with a count below and at
`64 N`. -/
theorem witness_ShiftRoundTrips :
    demo.Inv ∧
    (∃ t, exec (.shl 2 1 63) demo = .next t ∧ t.status.ovf = false ∧ (63 : Nat) < 64 * demo.n) ∧
    (∃ t, exec (.shl 2 1 127) demo = .next t ∧ t.status.ovf = true ∧ (127 : Nat) < 64 * demo.n) ∧
    (∃ t, exec (.shl 2 1 128) demo = .next t ∧ t.status.ovf = true ∧ 64 * demo.n ≤ 128) :=
  ⟨demo_inv, ⟨_, rfl, by decide⟩, ⟨_, rfl, by decide⟩, ⟨_, rfl, by decide⟩⟩

theorem witness_InverseTimesValueIsOne :
    demo.Inv ∧ (∃ t, exec (.modinv 2 1 15) demo = .next t ∧ t.status.err = 0) ∧
    (3 : Reg) ≠ 1 ∧ (3 : Reg) ≠ 2 ∧ (3 : Reg) ≠ 15 ∧ 1 < val (demo.reg 15) ∧
    (due 0 [5, 1] [6, 0] [1, 0]).Inv ∧
    (∃ t, exec (.modinv 2 1 15) (due 0 [5, 1] [6, 0] [1, 0]) = .next t ∧ t.status.err = 0) ∧
    val ((due 0 [5, 1] [6, 0] [1, 0]).reg 15) = 1 :=
  ⟨demo_inv, ⟨_, rfl, by decide⟩, by decide, by decide, by decide, by decide,
    due_inv _ _ rfl rfl rfl, ⟨_, rfl, by decide⟩, by decide⟩

theorem witness_MulsThenReducexIsScalarModmul :
    demo.Inv ∧ 0xFFFFFFFF < 2 ^ 32 ∧ (2 : Reg) ≠ 1 ∧ (2 : Reg) ≠ 15 ∧ (3 : Reg) ≠ 2 ∧
    (3 : Reg) ≠ 15 ∧ val (demo.reg 15) ≠ 0 := ⟨demo_inv, by decide⟩

/-- One state for each branch of the priority: an illegal word, a forbidden in-place use with a zero
modulus (`AliasError` first), a zero modulus, no inverse, an inverse, a modular command without one,
and a command that checks no modulus. -/
theorem witness_ErrorPriority :
    (∀ c : Word, (due c [6, 0] [7, 0] [9, 0]).Inv ∧ (due c [6, 0] [7, 0] [9, 0]).Due ∧
      ∃ t, step (due c [6, 0] [7, 0] [9, 0]) = .next t) ∧
    (∃ e, decode 0 = .error e) ∧
    (decode 0x20110C = .ok (.modinv 1 1 2) ∧ ForbiddenInPlace (.modinv 1 1 2)) ∧
    (decode 0x01208 = .ok (.reduce 2 1 0) ∧ ¬ ForbiddenInPlace (.reduce 2 1 0) ∧
      modulus (.reduce 2 1 0) = some 0 ∧ val ((due 0x01208 [6, 0] [7, 0] [9, 0]).reg 0) = 0) ∧
    (decode 0xF0130C = .ok (.modinv 3 1 15) ∧ ¬ ForbiddenInPlace (.modinv 3 1 15) ∧
      Nat.gcd (val ((due 0xF0130C [6, 0] [7, 0] [9, 0]).reg 1))
        (val ((due 0xF0130C [6, 0] [7, 0] [9, 0]).reg 15)) ≠ 1) ∧
    (decode 0x20130C = .ok (.modinv 3 1 2) ∧ ¬ ForbiddenInPlace (.modinv 3 1 2) ∧
      Nat.gcd (val ((due 0x20130C [6, 0] [7, 0] [9, 0]).reg 1))
        (val ((due 0x20130C [6, 0] [7, 0] [9, 0]).reg 2)) = 1) ∧
    (decode 0xF01308 = .ok (.reduce 3 1 15) ∧ ¬ ForbiddenInPlace (.reduce 3 1 15) ∧
      modulus (.reduce 3 1 15) = some 15 ∧
      val ((due 0xF01308 [6, 0] [7, 0] [9, 0]).reg 15) ≠ 0) ∧
    (decode 0x2204 = .ok (.shl 2 2 0) ∧ ¬ ForbiddenInPlace (.shl 2 2 0) ∧
      modulus (.shl 2 2 0) = none) := by
  refine ⟨fun c => ⟨due_inv _ _ rfl rfl rfl, due_due _ _ _ _ _, ?_⟩, ⟨_, rfl⟩, ⟨by decide, ?_⟩,
    ⟨by decide, ?_, by decide, by decide⟩, ⟨by decide, ?_, by decide⟩, ⟨by decide, ?_, by decide⟩,
    ⟨by decide, ?_, by decide, by decide⟩, ⟨by decide, ?_, by decide⟩⟩
  · obtain ⟨t, ht, -⟩ := step_kind (due c [6, 0] [7, 0] [9, 0])
    exact ⟨t, ht⟩
  all_goals simp [ForbiddenInPlace, allowsInPlace, dest, sources]

theorem witness_ErrorCompletionChangesStatusOnly :
    demoNoInverse.Due ∧ ∃ t, step demoNoInverse = .next t ∧ t.status.err ≠ 0 :=
  ⟨due_due _ _ _ _ _, _, rfl, by decide⟩

theorem witness_PrimitivesNeverRaiseOnValues :
    ForbiddenInPlace (.add 1 1 2) ∧ ¬ ForbiddenInPlace (.add 3 1 2) ∧
    ForbiddenInPlace (.muls 1 1 0) ∧ ¬ ForbiddenInPlace (.muls 2 1 0) := by
  simp [ForbiddenInPlace, allowsInPlace, dest, sources]

/-- Each flag set by its own command; and the steps that are no completion: a held access, an idle
step, an acceptance. -/
theorem witness_StatusDescribesTheLastCompletion :
    (∃ t, exec (.add 3 1 2) (due 0 [0, 1] [0, 0xFFFFFFFFFFFFFFFF] [0, 0]) = .next t ∧
      t.status.carry = true) ∧
    (∃ t, exec (.sub 3 2 1) demo = .next t ∧ t.status.borrow = true) ∧
    (∃ t, exec (.muls 3 1 0xFFFFFFFF) (due 0 [0, 0xFFFFFFFF00000000] [0, 0] [0, 0]) = .next t ∧
      t.status.ovf = true) ∧
    (∃ t, exec (.shl 1 1 64) demo = .next t ∧ t.status.ovf = true) ∧
    (∃ t, exec (.cmp 2 1) demo = .next t ∧ t.status.cmp ≠ 0) ∧
    (∃ t, step (busyDemo 1 [.write 0x0003 7]) = .next t ∧ ¬ (busyDemo 1 [.write 0x0003 7]).Due ∧
      (busyDemo 1 [.write 0x0003 7]).NoReset) ∧
    (∃ t, step (idleDemo [.write 0x0001 0x21301]) = .next t ∧
      (idleDemo [.write 0x0001 0x21301]).NoReset ∧ t.status.busy = true) :=
  ⟨⟨_, rfl, by decide⟩, ⟨_, rfl, by decide⟩, ⟨_, rfl, by decide⟩, ⟨_, rfl, by decide⟩,
    ⟨_, rfl, by decide⟩, ⟨_, rfl, fun h => absurd h.delay (by decide), by decide⟩,
    ⟨_, rfl, by decide, rfl⟩⟩

/-- Two machines that differ in a register the command does not name and in XW. -/
theorem witness_ResultDependsOnOperandsOnly :
    demo ≠ due 0x21301 [5, 1] [6, 0] [9, 0] 1 ∧
    demo.n = (due 0x21301 [5, 1] [6, 0] [9, 0] 1).n ∧
    (∀ r ∈ sources (.add 3 1 2), demo.reg r = (due 0x21301 [5, 1] [6, 0] [9, 0] 1).reg r) ∧
    (∃ t₁ t₂, exec (.add 3 1 2) demo = .next t₁ ∧
      exec (.add 3 1 2) (due 0x21301 [5, 1] [6, 0] [9, 0] 1) = .next t₂ ∧ t₁.status.err = 0) ∧
    (∃ t₁ t₂, exec (.muls 3 1 7) demo = .next t₁ ∧
      exec (.muls 3 1 7) (due 0x21301 [5, 1] [6, 0] [9, 0] 1) = .next t₂ ∧ t₁.status.err = 0) ∧
    (∃ t₁ t₂, exec (.bitlen 1) demo = .next t₁ ∧
      exec (.bitlen 1) (due 0x21301 [5, 1] [6, 0] [9, 0] 1) = .next t₂) ∧
    (demo.n = (due 0 [5, 1] [7, 0] [23, 0]).n ∧
      (∀ r ∈ sources (.reducex 3 1 15), demo.reg r = (due 0 [5, 1] [7, 0] [23, 0]).reg r) ∧
      demo.xw = (due 0 [5, 1] [7, 0] [23, 0]).xw) :=
  ⟨by decide, by decide, by decide, ⟨_, _, rfl, rfl, by decide⟩, ⟨_, _, rfl, rfl, by decide⟩,
    ⟨_, _, rfl, rfl⟩, by decide⟩

/-- An address outside what ADD writes (the word above its destination's), and for MULS and BITLEN
an address of another register. -/
theorem witness_CommandFrameOnTheBus :
    demo.Inv ∧ (∃ t, exec (.add 3 1 2) demo = .next t) ∧ (0x1400 : Addr) ≠ 0x0002 ∧
    (∀ j, ¬ InWindow demo.n 0x1400 3 j) ∧ (0x0003 : Addr) ≠ 0x0002 ∧
    (¬ ∃ rd rs1 imm, Instr.add 3 1 2 = .muls rd rs1 imm) ∧
    (¬ ∃ rs1, Instr.add 3 1 2 = .bitlen rs1) ∧
    (∃ t, exec (.muls 3 1 9) demo = .next t) ∧ (0x0004 : Addr) ≠ 0x0003 ∧
    (∃ t, exec (.bitlen 1) demo = .next t) ∧ dest (.bitlen 1) = none := by
  refine ⟨demo_inv, ⟨_, rfl⟩, by decide, ?_, by decide, by simp, by simp, ⟨_, rfl⟩, by decide,
    ⟨_, rfl⟩, rfl⟩
  rintro j ⟨h1, h2⟩
  have h1' : j < 2 := h1
  have h2' : (0x1400 : Nat) = 0x1000 + 256 * 3 + j := h2
  omega

/-- The boundary addresses of each clause, and one access of each kind. -/
theorem witness_IdleAccessEffects :
    (∀ acts, (idleDemo acts).Inv ∧ (idleDemo acts).status.busy = false) ∧
    (idleDemo [.read 0x0000]).host = .read 0x0000 :: [] ∧
    (idleDemo [.write 0x0001 7]).host = .write 0x0001 7 :: [] ∧
    InWindow demo.n 0x1000 0 0 ∧ InWindow demo.n 0x1001 0 1 ∧ InWindow demo.n 0x1F01 15 1 ∧
    Unmapped demo.n 0x0005 ∧ Unmapped demo.n 0x0FFF ∧ Unmapped demo.n 0x1002 ∧
    Unmapped demo.n 0x10FF ∧ Unmapped demo.n 0x1F02 ∧ Unmapped demo.n 0x1FFF ∧
    Unmapped demo.n 0x2000 ∧ Unmapped demo.n 0xFFFF ∧
    ¬ Unmapped demo.n 0x0004 ∧ ¬ Unmapped demo.n 0x1000 ∧ ¬ Unmapped demo.n 0x1001 ∧
    ¬ Unmapped demo.n 0x1F01 :=
  ⟨fun acts => ⟨idleDemo_inv acts, rfl⟩, rfl, rfl, by simp [InWindow, demo, due],
    by simp [InWindow, demo, due], by simp [InWindow, demo, due], by simp [Unmapped, demo, due],
    by simp [Unmapped, demo, due], by simp [Unmapped, demo, due], by simp [Unmapped, demo, due],
    by simp [Unmapped, demo, due], by simp [Unmapped, demo, due], by simp [Unmapped, demo, due],
    by simp [Unmapped, demo, due], by simp [Unmapped, demo, due], by simp [Unmapped, demo, due],
    by simp [Unmapped, demo, due], by simp [Unmapped, demo, due]⟩

theorem witness_AcceptanceStartsFromIdle :
    ((idleDemo [.write 0x0001 7]).host = .write 0x0001 7 :: [] ∧
      (idleDemo [.write 0x0001 7]).status.busy = false) ∧
    ((busyDemo 0 [.write 0x0001 7]).host = .write 0x0001 7 :: [] ∧
      (busyDemo 0 [.write 0x0001 7]).status.busy = true) := by decide

theorem witness_BusyHoldsEveryAccessButStatus :
    (busyDemo 1 [.read 0x0002]).status.busy = true ∧ (busyDemo 1 [.read 0x0002]).NoReset ∧
    (busyDemo 1 [.read 0x0002]).host = .read 0x0002 :: [] ∧ (busyDemo 1 [.read 0x0002]).delay ≠ 0 ∧
    (busyDemo 1 [.read 0x0004]).NoReset ∧
    (∀ rest, (busyDemo 1 [.read 0x0004]).host ≠ .read 0x0002 :: rest) ∧
    (busyDemo 0 [.read 0x0002]).delay = 0 ∧ (busyDemo 0 [.read 0x0002]).NoReset ∧
    ∃ t, step (busyDemo 0 [.read 0x0002]) = .next t :=
  ⟨rfl, by decide, rfl, by decide, by decide, by simp [busyDemo], rfl, by decide, _, rfl⟩

theorem witness_ReadsWhileBusyShowNoResult :
    (busyDemo 1 [.read 0x0002]).status.busy = true ∧
    ∃ t, step (busyDemo 1 [.read 0x0002]) = .next t ∧
      t.replies ≠ (busyDemo 1 [.read 0x0002]).replies := ⟨rfl, _, rfl, by decide⟩

theorem witness_AccessesAreIdempotent :
    (idleDemo [.read 0x1101, .read 0x1101]).status.busy = false ∧
    (idleDemo [.read 0x1101, .read 0x1101]).host = .read 0x1101 :: .read 0x1101 :: [] ∧
    (∃ t, Host.Core.run core 2 (idleDemo [.read 0x1101, .read 0x1101]) = .next t) ∧
    (0x0003 : Addr) ≠ 0x0001 ∧ (0x1101 : Addr) ≠ 0x0001 :=
  ⟨rfl, rfl, ⟨_, rfl⟩, by decide, by decide⟩

theorem witness_EveryCommandCompletes :
    (busyDemo 3 [.read 0x0002, .write 0x0001 7]).status.busy = true ∧
    HostAction.reset ∉ (busyDemo 3 [.read 0x0002, .write 0x0001 7]).host := by decide

theorem witness_HostSeesWholeCommandsInOrder :
    (idleDemo []).status.busy = false ∧
    HostAction.read 0x0002 ∉ [HostAction.write 0x1100 5, .write 0x0001 0x21301, .read 0x1300,
      .reset, .idle] := by decide

theorem witness_ResetEffect :
    (busyDemo 3 [.reset, .read 0x0002]).host = .reset :: [.read 0x0002] := rfl

/-- Two machines alike but for a command in flight and their registers. -/
theorem witness_ResetLeavesNothingBehind :
    busyDemo 3 [.reset] ≠ { demoZero with host := [.reset], status := Status.zero } ∧
    (busyDemo 3 [.reset]).n = demoZero.n ∧ (busyDemo 3 [.reset]).host = .reset :: [] ∧
    (busyDemo 3 [.reset]).replies = demoZero.replies ∧
    (busyDemo 3 [.reset]).fresh = demoZero.fresh := by decide

/-- A wide register changed by each of its three writers. -/
theorem witness_WideRegisterWriters :
    demo.Inv ∧ (∃ t, step demo = .next t ∧ t.reg 3 ≠ demo.reg 3) ∧
    (∃ t, step (idleDemo [.write 0x1101 77]) = .next t ∧
      t.reg 1 ≠ (idleDemo [.write 0x1101 77]).reg 1) ∧ (idleDemo [.write 0x1101 77]).Inv :=
  ⟨demo_inv, ⟨_, rfl, by decide⟩, ⟨_, rfl, by decide⟩, idleDemo_inv _⟩

theorem witness_ExtensionWordWriters :
    (∃ t, step (due 0x0000000200001203 [5, 1] [6, 0] [23, 0]) = .next t ∧
      t.xw ≠ (due 0x0000000200001203 [5, 1] [6, 0] [23, 0]).xw) ∧
    (∃ t, step (idleDemo [.write 0x0003 77]) = .next t ∧ t.xw ≠ (idleDemo [.write 0x0003 77]).xw) ∧
    (∃ t, step (idleDemo [.reset]) = .next t ∧ t.xw ≠ (idleDemo [.reset]).xw) ∧
    (∀ rd rs1 rm, Instr.reduce 2 1 15 ≠ .reducex rd rs1 rm) ∧
    ∃ t, exec (.reduce 2 1 15) demo = .next t :=
  ⟨⟨_, rfl, by decide⟩, ⟨_, rfl, by decide⟩, ⟨_, rfl, by decide⟩, by simp, _, rfl⟩

theorem witness_LengthRegisterWriters :
    (due 0x5006 [5, 1] [6, 0] [23, 0]).Inv ∧
    (∃ t, step (due 0x5006 [5, 1] [6, 0] [23, 0]) = .next t ∧
      t.len ≠ (due 0x5006 [5, 1] [6, 0] [23, 0]).len) ∧
    ∃ t, exec (.cmp 1 2) demo = .next t :=
  ⟨due_inv _ _ rfl rfl rfl, ⟨_, rfl, by decide⟩, _, rfl⟩

theorem witness_CommandRegisterAndBusyWriters :
    (∃ t, step (idleDemo [.write 0x0001 7]) = .next t ∧ t.cmd ≠ (idleDemo [.write 0x0001 7]).cmd ∧
      (idleDemo [.write 0x0001 7]).status.busy = false ∧ t.status.busy = true) ∧
    (∃ t, step demo = .next t ∧ demo.status.busy = true ∧ t.status.busy = false) ∧
    (∃ t, step (busyDemo 3 [.reset]) = .next t ∧ t.cmd ≠ (busyDemo 3 [.reset]).cmd ∧
      t.status.busy = false) :=
  ⟨⟨_, rfl, by decide, rfl, rfl⟩, ⟨_, rfl, rfl, by decide⟩, ⟨_, rfl, by decide, rfl⟩⟩

theorem witness_ConfigIsConstant :
    demo.Inv ∧ (∃ t, step demo = .next t) ∧ State.reset.n = 16 := ⟨demo_inv, ⟨_, rfl⟩, rfl⟩

theorem witness_StepRunsDecodedCommand : demo.Due ∧ decode demo.cmd = .ok (.add 3 1 2) :=
  ⟨due_due _ _ _ _ _, by decide⟩

theorem witness_StepKeepsInvariant : demo.Inv ∧ ∃ t, step demo = .next t := ⟨demo_inv, _, rfl⟩

end Sys2Proof.Tests
end

section
/-!
PROOFS. The invariant `State.Inv`: which updates of the state keep it, that reset establishes it, that
every end of a command and every performed write keeps it, and so every step.
-/
namespace Sys2Proof.Machine

/-! ### The updates of the state that keep the invariant -/

/-- The invariant speaks of `N`, the wide registers, LEN and STATUS without its BUSY bit only. -/
theorem State.Inv.congr {s t : State} (h : s.Inv) (hn : t.n = s.n) (hregs : t.regs = s.regs)
    (hlen : t.len = s.len) (hstatus : ∃ b, t.status = { s.status with busy := b }) : t.Inv := by
  obtain ⟨n, regs, xw, len, cmd, status, host, replies, delay, fresh⟩ := t
  obtain ⟨b, rfl⟩ := hstatus
  subst hn hregs hlen
  exact ⟨h.n_pos, h.n_le, h.reg_length, h.len_le, h.cmp_legal, h.err_legal, h.err_alone⟩

theorem State.Inv.atTurn {s : State} (h : s.Inv) : s.atTurn.Inv :=
  h.congr (atTurn_n s) (atTurn_regs s) (atTurn_len s) ⟨_, atTurn_status s⟩

theorem State.Inv.setReg {s : State} (h : s.Inv) (i : Reg) {X : Wide} (hX : X.length = s.n) :
    (s.setReg i X).Inv := by
  have hlength : ∀ j : Reg, ((s.setReg i X).reg j).length = s.n := fun j => by
    by_cases hij : i = j
    · rw [← hij, reg_setReg_same, hX]
    · rw [reg_setReg_ne s X hij, h.reg_length j]
  exact ⟨h.n_pos, h.n_le, hlength, h.len_le, h.cmp_legal, h.err_legal, h.err_alone⟩

theorem State.Inv.setRegWord {s : State} (h : s.Inv) (i : Reg) (j : Nat) (v : Word) :
    (s.setRegWord i j v).Inv :=
  h.setReg i (by rw [List.length_set, h.reg_length i])

/-- OverflowError and RangeError are the two errors no command raises (R203); any other keeps the
invariant, since an error completion writes STATUS alone and clears the flags (R206). -/
theorem State.Inv.raise {s : State} (h : s.Inv) {e : Error} (ho : e ≠ .overflowError)
    (hr : e ≠ .rangeError) : (raise e s).Inv := by
  have hcode : errorCode e = 0 ∨ errorCode e = 1 ∨ errorCode e = 2 ∨ errorCode e = 5
      ∨ errorCode e = 6 := by
    cases e with
    | overflowError => exact absurd rfl ho
    | rangeError => exact absurd rfl hr
    | domainError | noInverseError | illegalCommand | aliasError => decide
  exact ⟨h.n_pos, h.n_le, h.reg_length, h.len_le, (by decide : (0 : BitVec 2) ≠ 0b10), hcode,
    fun _ => ⟨rfl, rfl, rfl, rfl⟩⟩

/-! ### Reset -/

/-- Whatever words a reset leaves in the wide registers, its state meets the invariant (R40). -/
theorem resetWith_inv {n : Nat} (hpos : 1 ≤ n) (hle : n ≤ 256) (k : Nat) (host : List HostAction)
    (replies : List Word) : (State.resetWith n k host replies).Inv where
  n_pos := hpos
  n_le := hle
  reg_length := resetWith_reg_length n k host replies
  len_le := Nat.zero_le _
  cmp_legal := (by decide : Status.zero.cmp ≠ 0b10)
  err_legal := .inl rfl
  err_alone := fun h => absurd rfl h

/-! ### Completions and writes -/

/-- Both ways a command ends keep the invariant. -/
theorem Ends.inv {i : Instr} {s t : State} (hE : Ends i s t) (h : s.Inv) : t.Inv := by
  cases hE with
  | byError e he => exact h.raise (by rintro rfl; simp at he) (by rintro rfl; simp at he)
  | normally regs xw len q _ herr hcmp _ hlength _ _ hle =>
    exact ⟨h.n_pos, h.n_le, hlength h, hle h, hcmp, .inl herr, fun hne => absurd herr hne⟩

theorem runCommand_inv {s t : State} (h : s.Inv) (ht : runCommand s = .next t) : t.Inv := by
  obtain ⟨_, -, rfl⟩ | ⟨_, -, -, hE⟩ := runCommand_ends ht
  · exact h.raise (by decide) (by decide)
  · exact hE.inv h

theorem WriteKind.inv {a : Addr} {v : Word} {s t : State} (hk : WriteKind a v s t) (h : s.Inv) :
    t.Inv := by
  cases hk with
  | command => exact h.congr rfl rfl rfl ⟨true, rfl⟩
  | extension => exact h.congr rfl rfl rfl ⟨_, rfl⟩
  | regWord i j => exact h.setRegWord i j v
  | nothing => exact h

/-! ### The step -/

/-- The invariant's step lemma, by the kinds of step. -/
theorem StepKind.inv {s t : State} (hk : StepKind s t) (h : s.Inv) : t.Inv := by
  cases hk with
  | reset => exact resetWith_inv h.n_pos h.n_le _ _ _
  | completion _ _ ht => exact runCommand_inv h.atTurn ht
  | held => exact h.atTurn.congr rfl rfl rfl ⟨_, rfl⟩
  | pollBusy => exact h.congr rfl rfl rfl ⟨_, rfl⟩
  | idle => exact h.atTurn
  | read => exact h.congr rfl rfl rfl ⟨_, rfl⟩
  | write a v rest =>
    have hrest : State.Inv { s with host := rest } := h.congr rfl rfl rfl ⟨_, rfl⟩
    exact (write_kind a v _).inv hrest

/-- Settles O54, by the kinds of step and, for a completion, the two ways a command ends. -/
theorem stepKeepsInvariant : Obligations.StepKeepsInvariant := by
  unfold Obligations.StepKeepsInvariant
  intro s t h hstep
  exact (kind_of_step hstep).inv h

/-- Settles O53: the reset state is `resetWith` at `N = 16`, which is in the range of R6. -/
theorem resetMeetsInvariant : Obligations.ResetMeetsInvariant := by
  unfold Obligations.ResetMeetsInvariant
  exact resetWith_inv (by decide) (by decide) _ _ _

end Sys2Proof.Machine
end

section
/-!
PROOFS. Who changes what: the registers, XW, LEN, CMD and BUSY over one write, one completion and one
step (R22 to R25, R32), and the frame of a command on the bus (R36).
-/
namespace Sys2Proof.Machine
open Sys2Proof.Statements

/-! ### What the end of a command leaves unchanged, and what a change tells -/

/-- A command ends IDLE and leaves everything outside the registers and STATUS alone (R36, R206). -/
theorem Ends.keeps {i : Instr} {s t : State} (hE : Ends i s t) :
    t.status.busy = false ∧ t.n = s.n ∧ t.cmd = s.cmd ∧ t.host = s.host ∧ t.replies = s.replies ∧
      t.delay = s.delay ∧ t.fresh = s.fresh := by
  cases hE with
  | byError => exact ⟨rfl, rfl, rfl, rfl, rfl, rfl, rfl⟩
  | normally _ _ _ _ hbusy => exact ⟨hbusy, rfl, rfl, rfl, rfl, rfl, rfl⟩

theorem Ends.of_reg_ne {i : Instr} {s t : State} (hE : Ends i s t) {r : Reg}
    (hr : t.reg r ≠ s.reg r) : t.status.err = 0 ∧ dest i = some r := by
  cases hE with
  | byError => exact absurd rfl hr
  | normally _ _ _ _ _ herr _ hregs => exact ⟨herr, not_not.mp fun hd => hr (hregs r hd)⟩

theorem Ends.of_xw_ne {i : Instr} {s t : State} (hE : Ends i s t) (hx : t.xw ≠ s.xw) :
    t.status.err = 0 ∧ ∃ rd rs1 imm, i = .muls rd rs1 imm := by
  cases hE with
  | byError => exact absurd rfl hx
  | normally _ _ _ _ _ herr _ _ _ hxw =>
    exact ⟨herr, not_not.mp fun hi => hx (hxw fun rd rs1 imm h => hi ⟨rd, rs1, imm, h⟩)⟩

theorem Ends.of_len_ne {i : Instr} {s t : State} (hE : Ends i s t) (hl : t.len ≠ s.len) :
    ∃ rs1, i = .bitlen rs1 := by
  cases hE with
  | byError => exact absurd rfl hl
  | normally _ _ _ _ _ _ _ _ _ _ hlen =>
    exact not_not.mp fun hi => hl (hlen fun rs1 h => hi ⟨rs1, h⟩)

/-- A completion that changes more than STATUS is that of a decoded command. -/
theorem ends_of_runCommand_ne {α : Type} (f : State → α) {s t : State} (h : runCommand s = .next t)
    (hf : f t ≠ f s) (herror : f (raise .illegalCommand s) = f s) :
    ∃ i, decode s.cmd = .ok i ∧ Ends i s t := by
  obtain ⟨_, -, rfl⟩ | ⟨i, hi, -, hE⟩ := runCommand_ends h
  · exact absurd herror hf
  · exact ⟨i, hi, hE⟩

/-! ### A performed write -/

/-- The word written to CMD is accepted (R34). -/
theorem busWrite_cmd (c : Word) (s : State) : busWrite 0x0001 c s = accept c s := by
  obtain ⟨-, hcmd, -⟩ := place_scalar_iff s.n 0x0001
  rw [busWrite, hcmd.mpr rfl]

theorem WriteKind.keeps {a : Addr} {v : Word} {s t : State} (hk : WriteKind a v s t) :
    t.n = s.n ∧ t.len = s.len ∧ t.replies = s.replies := by
  cases hk <;> exact ⟨rfl, rfl, rfl⟩

/-- Only an acceptance touches CMD and STATUS, and it sets BUSY there (R34). -/
theorem WriteKind.accepts_or {a : Addr} {v : Word} {s t : State} (hk : WriteKind a v s t) :
    (a = 0x0001 ∧ t.cmd = v ∧ t.status = { s.status with busy := true }) ∨
      (a ≠ 0x0001 ∧ t.cmd = s.cmd ∧ t.status = s.status) := by
  cases hk with
  | command ha => exact .inl ⟨ha, rfl, rfl⟩
  | extension ha => exact .inr ⟨by rw [ha]; decide, rfl, rfl⟩
  | regWord i j hp =>
    refine .inr ⟨fun ha => ?_, rfl, rfl⟩
    obtain ⟨-, hcmd, -⟩ := place_scalar_iff s.n a
    rw [hcmd.mpr ha] at hp
    cases hp
  | nothing ha => exact .inr ⟨ha, rfl, rfl⟩

theorem WriteKind.of_reg_ne {a : Addr} {v : Word} {s t : State} (hk : WriteKind a v s t)
    (hn : s.n ≤ 256) {r : Reg} (hr : t.reg r ≠ s.reg r) : ∃ j, InWindow s.n a r j := by
  cases hk with
  | command | extension | nothing => exact absurd rfl hr
  | regWord i j hp =>
    obtain rfl : i = r := not_not.mp fun hi => hr (reg_setReg_ne s _ hi)
    exact ⟨j, (place_regWord_iff hn a i j).mp hp⟩

theorem WriteKind.of_xw_ne {a : Addr} {v : Word} {s t : State} (hk : WriteKind a v s t)
    (hx : t.xw ≠ s.xw) : a = 0x0003 := by
  cases hk with
  | extension ha => exact ha
  | command | regWord | nothing => exact absurd rfl hx

/-! ### One step -/

theorem not_noReset {s : State} {rest : List HostAction} (h : s.host = .reset :: rest) :
    ¬ s.NoReset := fun hr => hr (by rw [h]; rfl)

theorem not_due_of_delay {s : State} (hd : s.delay ≠ 0) : ¬ s.Due := fun h => hd h.delay

theorem not_due_of_idle {s : State} (hb : s.status.busy = false) : ¬ s.Due := fun h =>
  Bool.false_ne_true (hb.symm.trans h.busy)

/-- The word count is fixed when the engine is built (R6, R41). -/
theorem StepKind.n_eq {s t : State} (hk : StepKind s t) : t.n = s.n := by
  cases hk with
  | reset | pollBusy | read => rfl
  | held | idle => exact atTurn_n s
  | completion _ _ ht =>
    obtain ⟨-, hn, -⟩ := runCommand_keeps ht
    rw [hn, atTurn_n]
  | write a v =>
    obtain ⟨hn, -⟩ := (write_kind a v _).keeps
    exact hn

/-- Between completions and resets the result fields of STATUS keep their values (R27). -/
theorem StepKind.status_eq {s t : State} (hk : StepKind s t) (hdue : ¬ s.Due) (hr : s.NoReset) :
    ∃ b, t.status = { s.status with busy := b } := by
  cases hk with
  | reset _ h => exact absurd hr (not_noReset h)
  | completion _ h => exact absurd h hdue
  | held | idle => exact ⟨s.status.busy, atTurn_status s⟩
  | pollBusy | read => exact ⟨s.status.busy, rfl⟩
  | write a v =>
    obtain ⟨-, -, hst⟩ | ⟨-, -, hst⟩ := (write_kind a v _).accepts_or
    · exact ⟨true, hst⟩
    · exact ⟨s.status.busy, hst⟩

/-- BUSY is set by an acceptance and kept until the completion (R27, R32). -/
theorem StepKind.busy_iff {s t : State} (hk : StepKind s t) (hr : s.NoReset) :
    t.status.busy = true ↔ (s.status.busy = true ∧ ¬ s.Due) ∨
      (s.status.busy = false ∧ ∃ c rest, s.host = .write 0x0001 c :: rest) := by
  cases hk with
  | reset _ h => exact absurd hr (not_noReset h)
  | completion _ h ht =>
    obtain ⟨hidle, -⟩ := runCommand_keeps ht
    simp [hidle, h, h.busy]
  | held hb hd => simp [hb, not_due_of_delay hd]
  | pollBusy _ hb hd => simp [hb, not_due_of_delay hd]
  | idle hb h => obtain h | ⟨_, h⟩ := h <;> simp [hb, h]
  | read _ _ hb h => simp [hb, h]
  | write a v rest hb h =>
    obtain ⟨rfl, -, hst⟩ | ⟨ha, -, hst⟩ := (write_kind a v { s with host := rest }).accepts_or
    · exact ⟨fun _ => .inr ⟨hb, v, rest, h⟩, fun _ => by rw [hst]⟩
    · refine ⟨fun ht => by simp [hst, hb] at ht, ?_⟩
      rintro (⟨hb', -⟩ | ⟨-, c, rest', h'⟩)
      · exact absurd (hb.symm.trans hb') Bool.false_ne_true
      · cases h.symm.trans h'
        exact absurd rfl ha

/-- Only an acceptance makes an IDLE engine BUSY, with the word CMD then holds (R25, R32). -/
theorem StepKind.accepts {s t : State} (hk : StepKind s t) (hb : s.status.busy = false)
    (ht : t.status.busy = true) : ∃ c rest, s.host = .write 0x0001 c :: rest ∧ t.cmd = c := by
  cases hk with
  | reset => cases ht
  | completion _ h => exact absurd h (not_due_of_idle hb)
  | held hb' | pollBusy _ hb' => simp [hb] at hb'
  | idle => simp [hb] at ht
  | read => simp [hb] at ht
  | write a v rest _ h =>
    obtain ⟨rfl, hcmd, -⟩ | ⟨-, -, hst⟩ := (write_kind a v { s with host := rest }).accepts_or
    · exact ⟨v, rest, h, hcmd⟩
    · simp [hst, hb] at ht

theorem StepKind.of_cmd_ne {s t : State} (hk : StepKind s t) (hc : t.cmd ≠ s.cmd) :
    ¬ s.NoReset ∨ (s.status.busy = false ∧
      ∃ c rest, s.host = .write 0x0001 c :: rest ∧ t.cmd = c) := by
  cases hk with
  | reset _ h => exact .inl (not_noReset h)
  | completion _ _ ht =>
    obtain ⟨-, -, hcmd, -⟩ := runCommand_keeps ht
    exact absurd (hcmd.trans (atTurn_cmd s)) hc
  | held | idle => exact absurd (atTurn_cmd s) hc
  | pollBusy | read => exact absurd rfl hc
  | write a v rest hb h =>
    obtain ⟨rfl, hcmd, -⟩ | ⟨-, hcmd, -⟩ := (write_kind a v { s with host := rest }).accepts_or
    · exact .inr ⟨hb, v, rest, h, hcmd⟩
    · exact absurd hcmd hc

theorem StepKind.of_reg_ne {s t : State} (hk : StepKind s t) (hn : s.n ≤ 256) {r : Reg}
    (hr : t.reg r ≠ s.reg r) :
    ¬ s.NoReset ∨
    (s.status.busy = false ∧ ∃ a v rest j, s.host = .write a v :: rest ∧ InWindow s.n a r j) ∨
    (s.Due ∧ t.status.err = 0 ∧ ∃ i, decode s.cmd = .ok i ∧ dest i = some r) := by
  cases hk with
  | reset _ h => exact .inl (not_noReset h)
  | completion _ hdue ht =>
    have hr' : t.reg r ≠ s.atTurn.reg r := by rwa [atTurn_reg]
    obtain ⟨i, hi, hE⟩ := ends_of_runCommand_ne (·.reg r) ht hr' rfl
    obtain ⟨herr, hd⟩ := hE.of_reg_ne hr'
    exact .inr (.inr ⟨hdue, herr, i, atTurn_cmd s ▸ hi, hd⟩)
  | held | idle => exact absurd (atTurn_reg s r) hr
  | pollBusy | read => exact absurd rfl hr
  | write a v rest hb h =>
    obtain ⟨j, hj⟩ := (write_kind a v { s with host := rest }).of_reg_ne hn hr
    exact .inr (.inl ⟨hb, a, v, rest, j, h, hj⟩)

theorem StepKind.of_xw_ne {s t : State} (hk : StepKind s t) (hx : t.xw ≠ s.xw) :
    ¬ s.NoReset ∨
    (s.status.busy = false ∧ ∃ v rest, s.host = .write 0x0003 v :: rest) ∨
    (s.Due ∧ t.status.err = 0 ∧ ∃ rd rs1 imm, decode s.cmd = .ok (.muls rd rs1 imm)) := by
  cases hk with
  | reset _ h => exact .inl (not_noReset h)
  | completion _ hdue ht =>
    have hx' : t.xw ≠ s.atTurn.xw := by rwa [atTurn_xw]
    obtain ⟨i, hi, hE⟩ := ends_of_runCommand_ne State.xw ht hx' rfl
    obtain ⟨herr, rd, rs1, imm, rfl⟩ := hE.of_xw_ne hx'
    exact .inr (.inr ⟨hdue, herr, rd, rs1, imm, atTurn_cmd s ▸ hi⟩)
  | held | idle => exact absurd (atTurn_xw s) hx
  | pollBusy | read => exact absurd rfl hx
  | write a v rest hb h =>
    obtain rfl := (write_kind a v { s with host := rest }).of_xw_ne hx
    exact .inr (.inl ⟨hb, v, rest, h⟩)

theorem StepKind.of_len_ne {s t : State} (hk : StepKind s t) (hl : t.len ≠ s.len) :
    ¬ s.NoReset ∨ (s.Due ∧ ∃ rs1, decode s.cmd = .ok (.bitlen rs1)) := by
  cases hk with
  | reset _ h => exact .inl (not_noReset h)
  | completion _ hdue ht =>
    have hl' : t.len ≠ s.atTurn.len := by rwa [atTurn_len]
    obtain ⟨i, hi, hE⟩ := ends_of_runCommand_ne State.len ht hl' rfl
    obtain ⟨rs1, rfl⟩ := hE.of_len_ne hl'
    exact .inr ⟨hdue, rs1, atTurn_cmd s ▸ hi⟩
  | held | idle => exact absurd (atTurn_len s) hl
  | pollBusy | read => exact absurd rfl hl
  | write a v =>
    obtain ⟨-, hlen, -⟩ := (write_kind a v _).keeps
    exact absurd hlen hl

/-! ### The statements on writers -/

/-- Settles O46, by the kinds of step. -/
theorem wideRegisterWriters : Obligations.WideRegisterWriters := by
  unfold Obligations.WideRegisterWriters
  intro s t r hinv hstep hr
  exact (kind_of_step hstep).of_reg_ne hinv.n_le hr

/-- Settles O47, by the kinds of step and `exec_anyXw`. -/
theorem extensionWordWriters : Obligations.ExtensionWordWriters := by
  unfold Obligations.ExtensionWordWriters
  refine ⟨fun s t hstep hx => (kind_of_step hstep).of_xw_ne hx, ?_, rfl⟩
  intro i s t x hi hexec
  exact exec_anyXw hi hexec x

/-- Settles O48, by the kinds of step and `exec_anyLen`; the range of LEN is the invariant's. -/
theorem lengthRegisterWriters : Obligations.LengthRegisterWriters := by
  unfold Obligations.LengthRegisterWriters
  refine ⟨?_, fun i s t x hexec => exec_anyLen hexec x, rfl⟩
  intro s t hinv hstep hl
  have hk := kind_of_step hstep
  refine (hk.of_len_ne hl).imp_right ?_
  rintro ⟨hdue, hbitlen⟩
  exact ⟨hdue, hk.n_eq ▸ (hk.inv hinv).len_le, hbitlen⟩

/-- Settles O49, by the kinds of step; that BUSY ends by completion or reset only is `busy_iff`. -/
theorem commandRegisterAndBusyWriters : Obligations.CommandRegisterAndBusyWriters := by
  unfold Obligations.CommandRegisterAndBusyWriters
  intro s t hstep
  have hk := kind_of_step hstep
  refine ⟨hk.of_cmd_ne, hk.accepts, fun hb ht => ?_⟩
  by_contra h
  obtain ⟨hdue, hr⟩ := not_or.mp h
  have : t.status.busy = true := (hk.busy_iff (not_not.mp hr)).mpr (.inl ⟨hb, hdue⟩)
  simp [ht] at this

/-- Settles O52. -/
theorem stepNeverStops : Obligations.StepNeverStops := by
  unfold Obligations.StepNeverStops
  intro s
  obtain ⟨t, ht, -⟩ := step_kind s
  exact ⟨t, ht⟩

/-! ### The frame of a command on the bus -/

/-- Settles O34: an address shows one register, and a command changes no register but its own. -/
theorem commandFrameOnTheBus : Obligations.CommandFrameOnTheBus := by
  unfold Obligations.CommandFrameOnTheBus
  intro i s t hinv hexec
  have hE := ends_of_exec hexec
  obtain ⟨-, hn, hcmd, hhost, hreplies, hdelay, hfresh⟩ := hE.keeps
  refine ⟨fun a hstatus hxw hlen hwindow => ?_, hn, hhost, hreplies, hdelay, hfresh⟩
  obtain ⟨-, -, hplaceStatus, hplaceXw, hplaceLen⟩ := place_scalar_iff s.n a
  simp only [busRead, hn]
  split
  case h_1 => rfl
  case h_2 => exact hcmd
  case h_3 hp => exact absurd (hplaceStatus.mp hp) hstatus
  case h_4 hp =>
    by_contra hne
    obtain ⟨-, hmuls⟩ := hE.of_xw_ne hne
    exact hxw (hplaceXw.mp hp) hmuls
  case h_5 hp =>
    by_contra hne
    exact hlen (hplaceLen.mp hp) (hE.of_len_ne hne)
  case h_6 r j hp =>
    by_contra hne
    obtain ⟨-, hd⟩ := hE.of_reg_ne fun hreg => hne (by rw [hreg])
    exact hwindow r j hd ((place_regWord_iff hinv.n_le a r j).mp hp)
  case h_7 => rfl

end Sys2Proof.Machine
end

section
/-!
PROOFS. A command's result as a function of its operands (R35), and STATUS: its layout (R26), the flags
a command can leave in it (R27, R29), and when it changes.
-/
namespace Sys2Proof.Machine
open Sys2Proof.Statements

/-! ### The result depends on the operands only -/

/-- The codes of R200 start at 1, so an error completion is never taken for a normal one. -/
theorem errorCode_ne_zero (e : Error) : errorCode e ≠ 0 := by cases e <;> decide

/-- Two completions of one command show the same result: STATUS, and without an error what the command
writes beside it (R35, R36). -/
structure SameResult (i : Instr) (t₁ t₂ : State) : Prop where
  status : t₁.status = t₂.status
  destReg : ∀ rd, dest i = some rd → t₁.status.err = 0 → t₁.reg rd = t₂.reg rd
  xw : (∃ rd rs1 imm, i = .muls rd rs1 imm) → t₁.status.err = 0 → t₁.xw = t₂.xw
  len : (∃ rs1, i = .bitlen rs1) → t₁.len = t₂.len

/-- An error shows its code and no result; BITLEN, which raises none, is left out. -/
theorem SameResult.raise {i : Instr} (e : Error) (s₁ s₂ : State) (hi : ∀ rs1, i ≠ .bitlen rs1) :
    SameResult i (raise e s₁) (raise e s₂) where
  status := rfl
  destReg _ _ herr := absurd herr (errorCode_ne_zero e)
  xw _ herr := absurd herr (errorCode_ne_zero e)
  len := fun ⟨rs1, h⟩ => absurd h (hi rs1)

/-- The normal end of a command that writes its destination and STATUS alone. -/
theorem SameResult.wrote {i : Instr} {rd : Reg} (hd : dest i = some rd)
    (hi : ∀ rd rs1 imm, i ≠ .muls rd rs1 imm) (q : Status) (X : Wide) (s₁ s₂ : State) :
    SameResult i (complete q (s₁.setReg rd X)) (complete q (s₂.setReg rd X)) where
  status := rfl
  destReg rd' hd' _ := by
    obtain rfl : rd = rd' := Option.some.inj (hd.symm.trans hd')
    simp
  xw := fun ⟨rd, rs1, imm, h⟩ => absurd h (hi rd rs1 imm)
  len := by
    rintro ⟨rs1, rfl⟩
    exact absurd hd nofun

/-- A check that raises keeps two completions alike. -/
theorem SameResult.orRaise {i : Instr} {c : Prop} [Decidable c] {e : Error} {s₁ s₂ t₁ t₂ : State}
    (hi : ∀ rs1, i ≠ .bitlen rs1) (h : SameResult i t₁ t₂) :
    SameResult i (if c then Machine.raise e s₁ else t₁) (if c then Machine.raise e s₂ else t₂) := by
  split
  · exact .raise e s₁ s₂ hi
  · exact h

/-- R35: a completion reads `N`, the source registers and, for REDUCEX, XW, and nothing else. -/
theorem exec_sameResult {i : Instr} {s₁ s₂ t₁ t₂ : State} (hn : s₁.n = s₂.n)
    (hr : ∀ r ∈ sources i, s₁.reg r = s₂.reg r)
    (hx : (∃ rd rs1 rm, i = .reducex rd rs1 rm) → s₁.xw = s₂.xw)
    (h₁ : exec i s₁ = .next t₁) (h₂ : exec i s₂ = .next t₂) : SameResult i t₁ t₂ := by
  cases i with
  | add rd rs1 rs2 | sub rd rs1 rs2 =>
    have ha := hr rs1 (by simp [sources])
    have hb := hr rs2 (by simp [sources])
    simp only [exec, execAdd, execSub, Host.Outcome.next.injEq, ha, hb] at h₁ h₂
    subst h₁ h₂
    exact .orRaise nofun (.wrote rfl (by simp) _ _ _ _)
  | muls rd rs1 imm =>
    have ha := hr rs1 (by simp [sources])
    simp only [exec, execMuls, Host.Outcome.next.injEq, ha, hn] at h₁ h₂
    subst h₁ h₂
    refine .orRaise nofun ⟨rfl, fun rd' hd _ => ?_, fun _ _ => rfl, nofun⟩
    obtain rfl : rd = rd' := Option.some.inj hd
    exact (reg_setReg_same s₁ rd _).trans (reg_setReg_same s₂ rd _).symm
  | shl rd rs1 imm | shr rd rs1 imm =>
    have ha := hr rs1 (by simp [sources])
    simp only [exec, execShl, execShr, Host.Outcome.next.injEq, ha] at h₁ h₂
    subst h₁ h₂
    exact .wrote rfl (by simp) _ _ _ _
  | bitlen rs1 =>
    have ha := hr rs1 (by simp [sources])
    simp only [exec, execBitlen, Host.Outcome.next.injEq, ha] at h₁ h₂
    subst h₁ h₂
    exact ⟨rfl, nofun, nofun, fun _ => rfl⟩
  | cmp rs1 rs2 =>
    have ha := hr rs1 (by simp [sources])
    have hb := hr rs2 (by simp [sources])
    simp only [exec, execCmp, Host.Outcome.next.injEq, ha, hb] at h₁ h₂
    subst h₁ h₂
    exact ⟨rfl, nofun, nofun, nofun⟩
  | reduce rd rs1 rm =>
    have ha := hr rs1 (by simp [sources])
    have hm := hr rm (by simp [sources])
    simp only [exec, execReduce, Host.Outcome.next.injEq, ha, hm, hn] at h₁ h₂
    subst h₁ h₂
    exact .orRaise nofun (.orRaise nofun (.wrote rfl (by simp) _ _ _ _))
  | reducex rd rs1 rm =>
    have ha := hr rs1 (by simp [sources])
    have hm := hr rm (by simp [sources])
    have hxw := hx ⟨rd, rs1, rm, rfl⟩
    simp only [exec, execReducex, extendedDividend, Host.Outcome.next.injEq, ha, hm, hn, hxw] at h₁ h₂
    subst h₁ h₂
    exact .orRaise nofun (.orRaise nofun (.wrote rfl (by simp) _ _ _ _))
  | modmul rd rs1 rs2 rm | modexp rd rs1 rs2 rm =>
    have ha := hr rs1 (by simp [sources])
    have hb := hr rs2 (by simp [sources])
    have hm := hr rm (by simp [sources])
    simp only [exec, execModmul, execModexp, Host.Outcome.next.injEq, ha, hb, hm, hn] at h₁ h₂
    subst h₁ h₂
    exact .orRaise nofun (.orRaise nofun (.wrote rfl (by simp) _ _ _ _))
  | modinv rd rs1 rm =>
    have ha := hr rs1 (by simp [sources])
    have hm := hr rm (by simp [sources])
    simp only [exec, execModinv, Host.Outcome.next.injEq, ha, hm, hn] at h₁ h₂
    subst h₁ h₂
    refine .orRaise nofun (.orRaise nofun ?_)
    split
    · exact .raise _ _ _ nofun
    · exact .wrote rfl (by simp) _ _ _ _

/-- Settles O33. -/
theorem resultDependsOnOperandsOnly : Obligations.ResultDependsOnOperandsOnly := by
  unfold Obligations.ResultDependsOnOperandsOnly
  intro i s₁ s₂ t₁ t₂ hn hr hx h₁ h₂
  obtain ⟨hstatus, hdest, hxw, hlen⟩ := exec_sameResult hn hr hx h₁ h₂
  exact ⟨hstatus, hdest, hxw, hlen⟩

/-! ### The flags a command can set -/

/-- STATUS as a completion of the command can leave it (R27, R29): an error clears every flag, and a
normal completion sets at most the command's own. -/
inductive CompletionStatus : Instr → Status → Prop
  | error (i : Instr) (e : Error) : CompletionStatus i (errorStatus e)
  | plain (i : Instr) : CompletionStatus i plainStatus
  | add (rd rs1 rs2 : Reg) (carry : Nat) : CompletionStatus (.add rd rs1 rs2) (addStatus carry)
  | sub (rd rs1 rs2 : Reg) (borrow : Nat) : CompletionStatus (.sub rd rs1 rs2) (subStatus borrow)
  | muls (rd rs1 : Reg) (imm : Nat) (top : Word) :
      CompletionStatus (.muls rd rs1 imm) (mulsStatus top)
  | shl (rd rs1 : Reg) (imm : Nat) (lost : Bool) : CompletionStatus (.shl rd rs1 imm) (shlStatus lost)
  | cmp (rs1 rs2 : Reg) (sign : Int) : CompletionStatus (.cmp rs1 rs2) (cmpStatus sign)

theorem CompletionStatus.orRaise {i : Instr} {c : Prop} [Decidable c] {e : Error} {s t : State}
    (h : CompletionStatus i t.status) :
    CompletionStatus i (if c then raise e s else t).status := by
  split
  · exact .error i e
  · exact h

theorem exec_completionStatus {i : Instr} {s t : State} (h : exec i s = .next t) :
    CompletionStatus i t.status := by
  cases i with
  | add rd rs1 rs2 =>
    obtain rfl := Host.Outcome.next.inj h
    exact .orRaise (.add rd rs1 rs2 _)
  | sub rd rs1 rs2 =>
    obtain rfl := Host.Outcome.next.inj h
    exact .orRaise (.sub rd rs1 rs2 _)
  | muls rd rs1 imm =>
    obtain rfl := Host.Outcome.next.inj h
    exact .orRaise (.muls rd rs1 imm _)
  | shl rd rs1 imm =>
    obtain rfl := Host.Outcome.next.inj h
    exact .shl rd rs1 imm _
  | cmp rs1 rs2 =>
    obtain rfl := Host.Outcome.next.inj h
    exact .cmp rs1 rs2 _
  | shr | bitlen =>
    obtain rfl := Host.Outcome.next.inj h
    exact .plain _
  | reduce | reducex | modmul | modexp =>
    obtain rfl := Host.Outcome.next.inj h
    exact .orRaise (.orRaise (.plain _))
  | modinv rd rs1 rm =>
    obtain rfl := Host.Outcome.next.inj h
    refine .orRaise (.orRaise ?_)
    split
    · exact .error _ _
    · exact .plain _

/-- R27, R29: each flag is its own command's, and stands beside `ERR = 0`. -/
theorem CompletionStatus.flags {i : Instr} {q : Status} (h : CompletionStatus i q) :
    q.busy = false ∧
    (q.carry = true → q.err = 0 ∧ ∃ rd rs1 rs2, i = .add rd rs1 rs2) ∧
    (q.borrow = true → q.err = 0 ∧ ∃ rd rs1 rs2, i = .sub rd rs1 rs2) ∧
    (q.ovf = true → q.err = 0 ∧
      ((∃ rd rs1 imm, i = .muls rd rs1 imm) ∨ ∃ rd rs1 imm, i = .shl rd rs1 imm)) ∧
    (q.cmp ≠ 0 → q.err = 0 ∧ ∃ rs1 rs2, i = .cmp rs1 rs2) := by
  cases h with
  | error | plain => exact ⟨rfl, nofun, nofun, nofun, fun hcmp => absurd rfl hcmp⟩
  | add rd rs1 rs2 =>
    exact ⟨rfl, fun _ => ⟨rfl, rd, rs1, rs2, rfl⟩, nofun, nofun, fun hcmp => absurd rfl hcmp⟩
  | sub rd rs1 rs2 =>
    exact ⟨rfl, nofun, fun _ => ⟨rfl, rd, rs1, rs2, rfl⟩, nofun, fun hcmp => absurd rfl hcmp⟩
  | muls rd rs1 imm =>
    exact ⟨rfl, nofun, nofun, fun _ => ⟨rfl, .inl ⟨rd, rs1, imm, rfl⟩⟩, fun hcmp => absurd rfl hcmp⟩
  | shl rd rs1 imm =>
    exact ⟨rfl, nofun, nofun, fun _ => ⟨rfl, .inr ⟨rd, rs1, imm, rfl⟩⟩, fun hcmp => absurd rfl hcmp⟩
  | cmp rs1 rs2 => exact ⟨rfl, nofun, nofun, nofun, fun _ => ⟨rfl, rs1, rs2, rfl⟩⟩

/-! ### STATUS across a completion and between completions -/

/-- A completion writes every field of STATUS and reads none (R27). -/
theorem runCommand_anyStatus (s : State) (q : Status) :
    runCommand { s with status := q } = runCommand s := by
  simp only [runCommand]
  split
  · next i _ => exact exec_anyStatus i s q
  · rfl

/-- Settles O32, from what a completion leaves in STATUS and from the kinds of step. -/
theorem statusDescribesTheLastCompletion : Obligations.StatusDescribesTheLastCompletion := by
  unfold Obligations.StatusDescribesTheLastCompletion
  refine ⟨runCommand_anyStatus, fun i s t hexec => (exec_completionStatus hexec).flags, ?_,
    fun s t hstep hr => (kind_of_step hstep).busy_iff hr⟩
  intro s t hstep hdue hr
  obtain ⟨b, hb⟩ := (kind_of_step hstep).status_eq hdue hr
  rw [hb]
  exact ⟨rfl, rfl, rfl, rfl, rfl⟩

/-- Each field of STATUS fits the width R26 gives it. -/
theorem status_fields_fit (q : Status) :
    bit q.busy < 2 ∧ bit q.carry < 2 ∧ bit q.borrow < 2 ∧ bit q.ovf < 2 ∧ q.cmp.toNat < 2 ^ 2 ∧
      q.err.toNat < 2 ^ 4 := by
  have hbit : ∀ b, bit b < 2 := by decide
  exact ⟨hbit _, hbit _, hbit _, hbit _, q.cmp.isLt, q.err.isLt⟩

/-- STATUS as a number: its fields lie beside each other below bit 12 (R26). -/
theorem toNat_statusWord (q : Status) :
    (statusWord q).toNat = bit q.busy + bit q.carry * 2 ^ 1 + bit q.borrow * 2 ^ 2 + bit q.ovf * 2 ^ 3
      + q.cmp.toNat * 2 ^ 4 + q.err.toNat * 2 ^ 8 := by
  have hfit := status_fields_fit q
  rw [statusWord, BitVec.toNat_ofNat]
  omega

/-- Settles O35: every field is a digit of the sum `toNat_statusWord`, below the next one's weight. -/
theorem statusWordLayout : Obligations.StatusWordLayout := by
  unfold Obligations.StatusWordLayout
  intro q
  have hfit := status_fields_fit q
  have hbit : ∀ b : Bool, (if b then 1 else 0) = bit b := fun _ => rfl
  simp only [field, toNat_statusWord, hbit]
  refine ⟨?_, ?_, ?_, ?_, ?_, ?_, ?_, ?_⟩ <;> omega

end Sys2Proof.Machine
end

section
/-!
PROOFS. A command in flight: its acceptance (R34), what a host sees of it while BUSY (R37), and that it
completes (R38); and what is constant, or the same after each reset (R28, R40).
-/
namespace Sys2Proof.Machine
open Sys2Proof.Statements

/-! ### The engine's own turn and the host's list -/

theorem atTurn_of_write {s : State} {a : Addr} {v : Word} {rest : List HostAction}
    (h : s.host = .write a v :: rest) : s.atTurn = s := by
  simp [State.atTurn, h]

theorem mem_host_of_mem_atTurn_host {s : State} {a : HostAction} (h : a ∈ s.atTurn.host) :
    a ∈ s.host := by
  rw [State.atTurn] at h
  split at h
  · next hh => exact hh ▸ List.mem_cons_of_mem _ h
  all_goals exact h

theorem noReset_of_not_mem {s : State} (h : HostAction.reset ∉ s.host) : s.NoReset :=
  fun hhead => h (List.mem_of_head? hhead)

/-! ### Acceptance -/

/-- Settles O37: IDLE accepts the word by `accept`; BUSY takes its turn, which leaves the host's list
and CMD alone whether it is the completing one or not. -/
theorem acceptanceStartsFromIdle : Obligations.AcceptanceStartsFromIdle := by
  unfold Obligations.AcceptanceStartsFromIdle
  intro s c rest h
  refine ⟨fun hb => ⟨Config.latency s.fresh c s.regs s.xw, ?_⟩, fun hb => ?_⟩
  · rw [step_write hb h, busWrite_cmd]
    rfl
  · have hr : s.NoReset := by simp [State.NoReset, h]
    by_cases hd : s.delay = 0
    · obtain ⟨t, ht⟩ := runCommand_next s
      obtain ⟨-, -, hcmd, hhost, -⟩ := runCommand_keeps ht
      exact ⟨t, by rw [step_due ⟨hb, hd, hr⟩, atTurn_of_write h, ht], hhost, hcmd⟩
    · refine ⟨_, step_held hb hd hr (by simp [h]), ?_, ?_⟩
      · simp [atTurn_of_write h]
      · simp

/-! ### What the host reads while BUSY -/

theorem busRead_status (s : State) : busRead s 0x0002 = statusWord s.status := by
  obtain ⟨-, -, hplace, -⟩ := place_scalar_iff s.n 0x0002
  rw [busRead, hplace.mpr rfl]

/-- Settles O39: of the kinds of step from BUSY only the read of STATUS answers the host. -/
theorem readsWhileBusyShowNoResult : Obligations.ReadsWhileBusyShowNoResult := by
  unfold Obligations.ReadsWhileBusyShowNoResult
  intro s t hb hstep hreplies
  cases kind_of_step hstep with
  | pollBusy rest _ _ h =>
    refine ⟨⟨rest, h, rfl⟩, ?_, rfl, rfl, rfl, rfl, rfl⟩
    rw [performRead_replies, busRead_status]
  | reset => exact absurd rfl hreplies
  | completion _ _ ht =>
    obtain ⟨-, -, -, -, hkept, -⟩ := runCommand_keeps ht
    exact absurd (hkept.trans (atTurn_replies s)) hreplies
  | held => exact absurd (atTurn_replies s) hreplies
  | idle hidle | read _ _ hidle | write _ _ _ hidle =>
    exact absurd (hidle.symm.trans hb) Bool.false_ne_true

/-! ### Every command completes -/

/-- Before the completion a step without a reset counts the remaining time down by one. -/
theorem step_countsDown {s : State} {d : Nat} (hb : s.status.busy = true)
    (hreset : HostAction.reset ∉ s.host) (hd : s.delay = d + 1) :
    ∃ t, step s = .next t ∧ t.status.busy = true ∧ HostAction.reset ∉ t.host ∧ t.delay = d := by
  have hd0 : s.delay ≠ 0 := by omega
  by_cases hpoll : ∃ rest, s.host = .read 0x0002 :: rest
  · obtain ⟨rest, h⟩ := hpoll
    refine ⟨_, step_pollBusy hb hd0 h, hb, ?_, by simp [hd]⟩
    exact fun hm => hreset (h ▸ List.mem_cons_of_mem _ hm)
  · refine ⟨_, step_held hb hd0 (noReset_of_not_mem hreset) (fun rest h => hpoll ⟨rest, h⟩), ?_, ?_, ?_⟩
    · rw [atTurn_status, hb]
    · exact fun hm => hreset (mem_host_of_mem_atTurn_host hm)
    · simp [hd]

theorem run_succ_of_step {M : Host.Core} {s t : M.State} (h : M.step s = .next t) (k : Nat) :
    M.run (k + 1) s = M.run k t := by
  rw [Host.Core.run, h]

/-- Settles O41, by induction on the remaining time. -/
theorem everyCommandCompletes : Obligations.EveryCommandCompletes := by
  unfold Obligations.EveryCommandCompletes
  intro s hb hreset
  induction hd : s.delay generalizing s with
  | zero =>
    obtain ⟨t, ht⟩ := runCommand_next s.atTurn
    obtain ⟨hidle, -⟩ := runCommand_keeps ht
    have hstep : step s = .next t := (step_due ⟨hb, hd, noReset_of_not_mem hreset⟩).trans ht
    exact ⟨t, run_succ_of_step (M := core) hstep 0, hidle⟩
  | succ d ih =>
    obtain ⟨t, hstep, hb', hreset', hd'⟩ := step_countsDown hb hreset hd
    rw [run_succ_of_step (M := core) hstep]
    exact ih t hb' hreset' hd'

/-! ### CONFIG and the state after reset -/

theorem busRead_config (s : State) : busRead s 0x0000 = configWord s.n := by
  obtain ⟨hplace, -⟩ := place_scalar_iff s.n 0x0000
  rw [busRead, hplace.mpr rfl]

/-- CONFIG as a number: `N`, `NR` and `W` beside each other (R28). -/
theorem toNat_configWord {n : Nat} (hn : n ≤ 256) :
    (configWord n).toNat = n + 16 * 2 ^ 16 + 64 * 2 ^ 24 := by
  rw [configWord, BitVec.toNat_ofNat, Config.NR, Config.W]
  omega

/-- Settles O50: CONFIG shows the word count, which no step changes. -/
theorem configIsConstant : Obligations.ConfigIsConstant := by
  unfold Obligations.ConfigIsConstant
  refine ⟨fun s t hstep => ?_, fun s hinv => ?_, fun s hn => ?_⟩
  · rw [busRead_config, busRead_config, (kind_of_step hstep).n_eq]
  · have hle := hinv.n_le
    simp only [field, busRead_config, toNat_configWord hle]
    refine ⟨?_, ?_, ?_, ?_⟩ <;> omega
  · rw [busRead_config, hn]
    decide

/-- Settles O45. -/
theorem resetStateValues : Obligations.ResetStateValues := by
  unfold Obligations.ResetStateValues
  refine ⟨rfl, rfl, rfl, by decide, ?_, resetWith_reg_length _ _ _ _⟩
  rw [busRead_config, toNat_configWord resetMeetsInvariant.n_le]

end Sys2Proof.Machine
end

section
/-!
PROOFS. What an access does: the value a read returns and the one register a write changes, at every
address (R52, R53, R54, R57), that repeating an access adds nothing (R60), and which access a BUSY
engine performs (R58).
-/
namespace Sys2Proof.Machine
open Sys2Proof.Statements

/-! ### Reads -/

/-- The register map (R52, R53, R54), as a read shows it. The length of the register is what puts the
word of the window in its list. -/
theorem busRead_readsAs {s : State} (h : s.Inv) (a : Addr) : ReadsAs s a (busRead s a) where
  config ha := by rw [ha, busRead_config, toNat_configWord h.n_le]
  cmd ha := by
    obtain ⟨-, hplace, -⟩ := place_scalar_iff s.n a
    rw [busRead, hplace.mpr ha]
  status ha := by rw [ha, busRead_status]
  xw ha := by
    obtain ⟨-, -, -, hplace, -⟩ := place_scalar_iff s.n a
    rw [busRead, hplace.mpr ha]
  len ha := by
    obtain ⟨-, -, -, -, hplace⟩ := place_scalar_iff s.n a
    rw [busRead, hplace.mpr ha]
  window i j hw := by
    have hj : j < (s.reg i).length := h.reg_length i ▸ hw.1
    rw [busRead, (place_regWord_iff h.n_le a i j).mpr hw]
    simp [wordAt, hj]
  unmapped hu := by rw [busRead, (place_unmapped_iff s.n a).mpr hu]

/-- A performed read changes nothing an address shows. -/
theorem busRead_performRead (s : State) (a b : Addr) : busRead (performRead a s) b = busRead s b := rfl

/-! ### Writes -/

theorem busWrite_xw (v : Word) (s : State) : busWrite 0x0003 v s = { s with xw := v } := by
  obtain ⟨-, -, -, hplace, -⟩ := place_scalar_iff s.n 0x0003
  rw [busWrite, hplace.mpr rfl]

theorem busWrite_window {s : State} (hn : s.n ≤ 256) {a : Addr} {i : Reg} {j : Nat}
    (h : InWindow s.n a i j) (v : Word) : busWrite a v s = s.setRegWord i j v := by
  rw [busWrite, (place_regWord_iff hn a i j).mpr h]

/-- Read-only and unmapped addresses ignore a write (R52, R54). -/
theorem busWrite_ignored {s : State} {a : Addr}
    (h : a = 0x0000 ∨ a = 0x0002 ∨ a = 0x0004 ∨ Unmapped s.n a) (v : Word) : busWrite a v s = s := by
  obtain ⟨hconfig, -, hstatus, -, hlen⟩ := place_scalar_iff s.n a
  obtain ha | ha | ha | ha := h
  · rw [busWrite, hconfig.mpr ha]
  · rw [busWrite, hstatus.mpr ha]
  · rw [busWrite, hlen.mpr ha]
  · rw [busWrite, (place_unmapped_iff s.n a).mpr ha]

/-- A write anywhere but to CMD is absorbed by the same write made before it. -/
theorem busWrite_twice (s : State) {a : Addr} (v : Word) (ha : a ≠ 0x0001) :
    busWrite a v (busWrite a v s) = busWrite a v s := by
  obtain ⟨-, hcmd, -⟩ := place_scalar_iff s.n a
  cases hp : place s.n a with
  | cmd => exact absurd (hcmd.mp hp) ha
  | config | status | len | unmapped | xw => simp [busWrite, hp]
  | regWord i j => simp [busWrite, hp, State.setRegWord, State.setReg, State.reg]

/-! ### The statements on accesses -/

theorem run_core_succ {s t : State} (h : step s = .next t) (k : Nat) :
    Host.Core.run core (k + 1) s = Host.Core.run core k t :=
  run_succ_of_step (M := core) h k

/-- Settles O36: IDLE performs the access presented by `busRead` or `busWrite`, whose effect at each
address the lemmas above give. -/
theorem idleAccessEffects : Obligations.IdleAccessEffects := by
  unfold Obligations.IdleAccessEffects
  refine ⟨fun s a rest hinv hb h => ⟨busRead s a, busRead_readsAs hinv a, step_read hb h⟩, ?_⟩
  intro s a v rest hinv hb h
  rw [step_write hb h]
  refine ⟨?_, ?_, fun i j hw => ?_, fun ha => ?_⟩
  · rintro rfl
    exact ⟨_, congrArg _ (busWrite_cmd v _)⟩
  · rintro rfl
    rw [busWrite_xw]
  · rw [busWrite_window (s := { s with host := rest }) hinv.n_le hw]
    rfl
  · rw [busWrite_ignored (s := { s with host := rest }) ha]

/-- Settles O38, by the three kinds of BUSY step: the read of STATUS, the held access and the
completion. -/
theorem busyHoldsEveryAccessButStatus : Obligations.BusyHoldsEveryAccessButStatus := by
  unfold Obligations.BusyHoldsEveryAccessButStatus
  intro s hb hr
  refine ⟨fun rest h hd => ?_, fun hs hd => step_held hb hd hr hs, fun hd => ?_⟩
  · rw [step_pollBusy hb hd h, performRead, busRead_status]
  · have hstep := step_due ⟨hb, hd, hr⟩
    refine ⟨hstep, fun t ht => ?_⟩
    obtain ⟨hidle, -, -, hhost, hreplies, -⟩ := runCommand_keeps (hstep.symm.trans ht)
    exact ⟨hidle, hhost, hreplies.trans (atTurn_replies s)⟩

/-- Settles O40. -/
theorem accessesAreIdempotent : Obligations.AccessesAreIdempotent := by
  unfold Obligations.AccessesAreIdempotent
  refine ⟨busRead_performRead, fun s t a rest hb h hrun => ⟨busRead s a, ?_⟩,
    fun s a v ha => busWrite_twice s v ha⟩
  have hfirst := step_read hb h
  have hsecond := step_read (s := performRead a { s with host := .read a :: rest }) hb rfl
  rw [run_core_succ hfirst, run_core_succ hsecond] at hrun
  obtain rfl := Host.Outcome.next.inj hrun
  rw [List.append_cons]
  rfl

end Sys2Proof.Machine
end

section
/-!
PROOFS. The host sees whole commands in order (R62): every state has a reference outcome, in which the
command in flight and then each action still in the host's list take their whole effect at once; every
step but a read of STATUS keeps it, and the engine comes to an IDLE state with nothing left to do, which
is its own outcome.
-/
namespace Sys2Proof.Machine

/-! ### The end of a command as a function -/

/-- The state in which the command in `CMD` ends. -/
def completed (s : State) : State :=
  match runCommand s with
  | .next t => t
  | .fault _ => s
  | .refused _ => s

theorem completed_eq {s t : State} (h : runCommand s = .next t) : completed s = t := by
  rw [completed, h]

theorem completed_keeps (s : State) :
    (completed s).status.busy = false ∧ (completed s).n = s.n ∧ (completed s).cmd = s.cmd ∧
      (completed s).host = s.host ∧ (completed s).replies = s.replies ∧
      (completed s).delay = s.delay ∧ (completed s).fresh = s.fresh := by
  obtain ⟨t, ht⟩ := runCommand_next s
  rw [completed_eq ht]
  exact runCommand_keeps ht

theorem wholeCommand_eq (c : Word) (s : State) :
    wholeCommand c s = completed { accept c s with delay := 0 } := by
  obtain ⟨t, ht⟩ := runCommand_next { accept c s with delay := 0 }
  rw [completed_eq ht, wholeCommand, ht]

/-! ### The reference outcome of a state -/

/-- The engine once the command in flight, if there is one, has ended, without its host's list. -/
def settled (s : State) : State :=
  if s.status.busy then completed { s with host := [], delay := 0 } else { s with host := [] }

/-- The whole effects, in order, of the command in flight and of all the host still has to do. -/
def outcome (s : State) : State := inOrder (settled s) s.host

theorem settled_of_idle {s : State} (hb : s.status.busy = false) :
    settled s = { s with host := [] } := by
  simp [settled, hb]

theorem outcome_of_idle {s : State} (hb : s.status.busy = false) :
    outcome s = inOrder { s with host := [] } s.host := by
  rw [outcome, settled_of_idle hb]

/-- An IDLE engine whose host does nothing more is its own outcome. -/
theorem outcome_of_done {s : State} (hb : s.status.busy = false) (hhost : s.host = []) :
    outcome s = s := by
  have hs : { s with host := [] } = s := by rw [← hhost]
  rw [outcome_of_idle hb, hhost, hs]
  rfl

theorem settled_of_busy {s : State} (hb : s.status.busy = true) :
    settled s = completed { s with host := [], delay := 0 } := by
  simp [settled, hb]

/-- An idle step of the host leaves the engine as it is. -/
theorem settled_atTurn (s : State) : settled s.atTurn = settled s := by
  rw [State.atTurn]
  split <;> rfl

/-- The time a command still takes does not show in its end. -/
theorem settled_delay {s : State} (hb : s.status.busy = true) (d : Nat) :
    settled { s with delay := d } = settled s := by
  rw [settled_of_busy hb]
  exact settled_of_busy hb

/-- Reset leaves nothing of the command in flight behind, its results included (R232). -/
theorem resetEngine_settled (s : State) : resetEngine (settled s) = resetEngine { s with host := [] } := by
  by_cases hb : s.status.busy = true
  · obtain ⟨-, hn, -, hhost, hreplies, -, hfresh⟩ :=
      completed_keeps { s with host := [], delay := 0 }
    rw [settled_of_busy hb, resetEngine, hn, hhost, hreplies, hfresh, resetEngine]
  · rw [settled_of_idle (by simpa using hb)]

theorem settled_of_completion {s t : State} (hb : s.status.busy = true) (hd : s.delay = 0)
    (ht : runCommand s = .next t) : settled t = settled s := by
  obtain ⟨hidle, -, -, -, hreplies, hdelay, hfresh⟩ := runCommand_keeps ht
  have hend := runCommand_outside ht [] s.replies 0 s.fresh
  rw [settled_of_idle hidle, settled_of_busy hb, completed_eq hend, ← hreplies, ← hfresh, ← hd, hdelay]

/-- A write has its whole effect at once, that of the command included where it starts one. -/
theorem settled_busWrite {s : State} (hb : s.status.busy = false) (a : Addr) (v : Word) :
    settled (busWrite a v s) = wholeAction (settled s) (.write a v) := by
  rw [settled_of_idle hb, wholeAction]
  split
  · next ha => rw [ha, busWrite_cmd, settled_of_busy rfl, wholeCommand_eq]; rfl
  · next ha =>
    obtain ⟨-, hcmd, -⟩ := place_scalar_iff s.n a
    simp only [busWrite]
    cases hp : place s.n a with
    | cmd => exact absurd (hcmd.mp hp) ha
    | config | status | xw | len | regWord | unmapped => exact settled_of_idle hb

/-! ### Every step keeps the outcome -/

theorem WriteKind.host_eq {a : Addr} {v : Word} {s t : State} (hk : WriteKind a v s t) :
    t.host = s.host := by
  cases hk <;> rfl

theorem inOrder_cons (s : State) (a : HostAction) (acts : List HostAction) :
    inOrder s (a :: acts) = inOrder (wholeAction s a) acts := rfl

theorem inOrder_atTurn_host (s u : State) : inOrder u s.atTurn.host = inOrder u s.host := by
  rw [State.atTurn]
  split
  · next h => rw [h]; rfl
  all_goals rfl

theorem outcome_atTurn (s : State) : outcome s.atTurn = outcome s := by
  rw [outcome, settled_atTurn, inOrder_atTurn_host, outcome]

/-- A step that performs the host's first action keeps the outcome if it gives the engine that action's
whole effect. -/
theorem outcome_of_performed {s t : State} {a : HostAction} {rest : List HostAction}
    (h : s.host = a :: rest) (ht : t.host = rest) (hsettled : settled t = wholeAction (settled s) a) :
    outcome t = outcome s := by
  rw [outcome, outcome, h, ht, inOrder_cons, hsettled]

theorem StepKind.outcome_eq {s t : State} (hk : StepKind s t)
    (hpoll : HostAction.read 0x0002 ∉ s.host) : outcome t = outcome s := by
  cases hk with
  | reset rest h => exact outcome_of_performed h rfl (resetEngine_settled s).symm
  | completion _ hdue ht =>
    obtain ⟨-, -, -, hhost, -⟩ := runCommand_keeps ht
    have hbusy : s.atTurn.status.busy = true := by rw [atTurn_status, hdue.busy]
    have hdelay : s.atTurn.delay = 0 := by rw [atTurn_delay, hdue.delay]
    rw [← outcome_atTurn s, outcome, outcome, hhost, settled_of_completion hbusy hdelay ht]
  | held hb =>
    have hbusy : s.atTurn.status.busy = true := by rw [atTurn_status, hb]
    rw [← outcome_atTurn s, outcome, outcome, settled_delay hbusy]
  | pollBusy rest _ _ h => exact absurd (h ▸ List.mem_cons_self) hpoll
  | idle => exact outcome_atTurn s
  | read a rest hb h =>
    refine outcome_of_performed h rfl ?_
    rw [settled_of_idle hb]
    exact settled_of_idle hb
  | write a v rest hb h =>
    refine outcome_of_performed h (write_kind a v { s with host := rest }).host_eq ?_
    exact settled_busWrite (s := { s with host := rest }) hb a v

/-! ### Every host's list is done after some number of steps -/

/-- How many more steps the engine takes before it is IDLE, if no reset comes first. -/
def timeLeft (s : State) : Nat := if s.status.busy then s.delay + 1 else 0

theorem timeLeft_of_idle {s : State} (hb : s.status.busy = false) : timeLeft s = 0 := by
  simp [timeLeft, hb]

theorem timeLeft_of_busy {s : State} (hb : s.status.busy = true) : timeLeft s = s.delay + 1 := by
  simp [timeLeft, hb]

theorem atTurn_host (s : State) :
    (∃ a, s.host = a :: s.atTurn.host) ∨ s.atTurn.host = s.host := by
  rw [State.atTurn]
  split
  · next rest h => exact .inl ⟨.idle, h⟩
  all_goals exact .inr rfl

/-- Every step performs the host's first action or brings the command in flight nearer to its end, until
the engine is IDLE and the host's list empty. -/
theorem StepKind.progress {s t : State} (hk : StepKind s t)
    (hwork : ¬ (s.status.busy = false ∧ s.host = [])) :
    (∃ a, s.host = a :: t.host) ∨ (t.host = s.host ∧ timeLeft t < timeLeft s) := by
  cases hk with
  | reset _ h | read _ _ _ h | pollBusy _ _ _ h => exact .inl ⟨_, h⟩
  | completion _ hdue ht =>
    obtain ⟨hidle, -, -, hhost, -⟩ := runCommand_keeps ht
    rw [hhost, timeLeft_of_idle hidle, timeLeft_of_busy hdue.busy]
    exact (atTurn_host s).imp_right fun h => ⟨h, Nat.succ_pos _⟩
  | held hb hd =>
    refine (atTurn_host s).imp_right fun h => ⟨h, ?_⟩
    rw [timeLeft_of_busy (by simp [hb]), timeLeft_of_busy hb]
    change s.delay - 1 + 1 < s.delay + 1
    omega
  | idle hb h =>
    obtain h | ⟨_, h⟩ := h
    · exact absurd ⟨hb, h⟩ hwork
    · exact .inl ⟨.idle, by simp [State.atTurn, h]⟩
  | write a v rest _ h => exact .inl ⟨_, by rw [h, (write_kind a v _).host_eq]⟩

/-- Any run without a read of STATUS comes to its reference outcome. -/
theorem run_reaches_outcome (s : State) (hpoll : HostAction.read 0x0002 ∉ s.host) :
    ∃ (k : Nat) (t : State), Host.Core.run core k s = .next t ∧ t.status.busy = false ∧
      t = outcome s := by
  by_cases hdone : s.status.busy = false ∧ s.host = []
  · obtain ⟨hb, hhost⟩ := hdone
    refine ⟨0, s, rfl, hb, ?_⟩
    exact (outcome_of_done hb hhost).symm
  · obtain ⟨u, hstep, hk⟩ := step_kind s
    have hprogress := hk.progress hdone
    have hpoll' : HostAction.read 0x0002 ∉ u.host := by
      obtain ⟨a, h⟩ | ⟨h, -⟩ := hprogress
      · exact fun hm => hpoll (h ▸ List.mem_cons_of_mem a hm)
      · rwa [h]
    have hdecreases : u.host.length < s.host.length ∨
        (u.host.length = s.host.length ∧ timeLeft u < timeLeft s) := by
      obtain ⟨a, h⟩ | ⟨h, hlt⟩ := hprogress
      · exact .inl (by simp [h])
      · exact .inr ⟨by rw [h], hlt⟩
    obtain ⟨k, t, hrun, hidle, ht⟩ := run_reaches_outcome u hpoll'
    exact ⟨k + 1, t, by rw [run_core_succ hstep, hrun], hidle, ht.trans (hk.outcome_eq hpoll)⟩
termination_by (s.host.length, timeLeft s)
decreasing_by exact Prod.lex_def.mpr hdecreases

/-- Settles O42: `run_reaches_outcome` from an IDLE state. -/
theorem hostSeesWholeCommandsInOrder : Obligations.HostSeesWholeCommandsInOrder := by
  unfold Obligations.HostSeesWholeCommandsInOrder
  intro s acts hb hpoll
  obtain ⟨k, t, hrun, hidle, ht⟩ := run_reaches_outcome { s with host := acts } hpoll
  exact ⟨k, t, hrun, hidle, ht.trans (outcome_of_idle (s := { s with host := acts }) hb)⟩

end Sys2Proof.Machine
end

section
/-!
PROOFS. The command word: `decode` and `encode` are inverse (R85, R86), the match and mask columns of the
opcode table are the decoder (R84), the encoding is a sum (R87), and which words are illegal (R89).
-/
namespace Sys2Proof
open Sys2Proof.Machine Sys2Proof.Statements

/-! ### Decoding is recognising a command's fields -/

@[simp] theorem regOfField_val (r : Reg) : regOfField r = r := Fin.ofNat_val_eq_self r

/-- The fields of a command decode to it: its format's unused fields are the 0 of `fieldsOf`. -/
theorem decodeFields_fieldsOf (i : Instr) : decodeFields (fieldsOf i) = .ok i := by
  cases i <;> simp [decodeFields, fieldsOf, whenZero]

theorem unpack_encode {i : Instr} (h : i.WellFormed) : unpack (encode i) = fieldsOf i :=
  unpack_packNat (fieldsOf_fit h)

/-- A word is a command exactly when its fields are the command's (R85, R86). -/
theorem decode_ok_iff {c : Word} {i : Instr} : decode c = .ok i ↔ unpack c = fieldsOf i where
  mp h := (decode_ok h).2
  mpr h := by rw [decode, h, decodeFields_fieldsOf]

theorem decode_encode {i : Instr} (h : i.WellFormed) : decode (encode i) = .ok i :=
  decode_ok_iff.mpr (unpack_encode h)

theorem encode_of_unpack {c : Word} {i : Instr} (h : unpack c = fieldsOf i) : encode i = c := by
  rw [encode, ← h, packNat_unpack, BitVec.ofNat_toNat, BitVec.setWidth_eq]

/-- The twelve opcodes are 1 to 12 (R84). -/
theorem fieldsOf_op_range (i : Instr) : 1 ≤ (fieldsOf i).op ∧ (fieldsOf i).op ≤ 12 := by
  cases i <;> simp [fieldsOf]

/-! ### The masks, one lemma for each format of R82 -/

/-- The mask selects the opcode and the bits `h1:l1` and `h2:l2` above it. -/
abbrev SelectsZones (m : Word) (h1 l1 h2 l2 : Nat) : Prop :=
  (8 ≤ l1 ∧ l1 ≤ h1 ∧ h1 < 64) ∧ (8 ≤ l2 ∧ l2 ≤ h2 ∧ h2 < 64) ∧
    ∀ i, i < 64 → m.getLsbD i = decide (i < 8 ∨ (l1 ≤ i ∧ i ≤ h1) ∨ (l2 ≤ i ∧ i ≤ h2))

theorem mask_zones_iff {c m p : Word} {h1 l1 h2 l2 : Nat} (hm : SelectsZones m h1 l1 h2 l2)
    (hp : p.toNat < 256) :
    c &&& m = p ↔ (unpack c).op = p.toNat ∧ slice c.toNat h1 l1 = 0 ∧ slice c.toNat h2 l2 = 0 := by
  obtain ⟨⟨h8, hl, hh⟩, ⟨h8', hl', hh'⟩, hbits⟩ := hm
  exact mask_iff hl hl' hh hh' h8 h8' hp hbits

/-- ADD, SUB. -/
theorem maskR3_iff {c p : Word} (hp : p.toNat < 256) :
    c &&& 0xFFFFFFFFFFF000FF = p ↔
      (unpack c).op = p.toNat ∧ (unpack c).rm = 0 ∧ (unpack c).z = 0 ∧ (unpack c).imm = 0 := by
  rw [mask_zones_iff (h1 := 63) (l1 := 20) (h2 := 63) (l2 := 20) (by decide) hp]
  simp only [unpack, slice]
  omega

/-- MULS, SHL, SHR. -/
theorem maskRI_iff {c p : Word} (hp : p.toNat < 256) :
    c &&& 0x00000000FFFF00FF = p ↔
      (unpack c).op = p.toNat ∧ (unpack c).rs2 = 0 ∧ (unpack c).rm = 0 ∧ (unpack c).z = 0 := by
  rw [mask_zones_iff (h1 := 31) (l1 := 16) (h2 := 31) (l2 := 16) (by decide) hp]
  simp only [unpack, slice]
  omega

/-- BITLEN. -/
theorem maskR1_iff {c p : Word} (hp : p.toNat < 256) :
    c &&& 0xFFFFFFFFFFFF0FFF = p ↔
      (unpack c).op = p.toNat ∧ (unpack c).rd = 0 ∧ (unpack c).rs2 = 0 ∧ (unpack c).rm = 0 ∧
        (unpack c).z = 0 ∧ (unpack c).imm = 0 := by
  rw [mask_zones_iff (h1 := 11) (l1 := 8) (h2 := 63) (l2 := 16) (by decide) hp]
  simp only [unpack, slice]
  omega

/-- CMP. -/
theorem maskR2_iff {c p : Word} (hp : p.toNat < 256) :
    c &&& 0xFFFFFFFFFFF00FFF = p ↔
      (unpack c).op = p.toNat ∧ (unpack c).rd = 0 ∧ (unpack c).rm = 0 ∧ (unpack c).z = 0 ∧
        (unpack c).imm = 0 := by
  rw [mask_zones_iff (h1 := 11) (l1 := 8) (h2 := 63) (l2 := 20) (by decide) hp]
  simp only [unpack, slice]
  omega

/-- REDUCE, REDUCEX, MODINV. -/
theorem maskRM_iff {c p : Word} (hp : p.toNat < 256) :
    c &&& 0xFFFFFFFFFF0F00FF = p ↔
      (unpack c).op = p.toNat ∧ (unpack c).rs2 = 0 ∧ (unpack c).z = 0 ∧ (unpack c).imm = 0 := by
  rw [mask_zones_iff (h1 := 19) (l1 := 16) (h2 := 63) (l2 := 24) (by decide) hp]
  simp only [unpack, slice]
  omega

/-- MODMUL, MODEXP. -/
theorem maskR4_iff {c p : Word} (hp : p.toNat < 256) :
    c &&& 0xFFFFFFFFFF0000FF = p ↔
      (unpack c).op = p.toNat ∧ (unpack c).z = 0 ∧ (unpack c).imm = 0 := by
  rw [mask_zones_iff (h1 := 63) (l1 := 24) (h2 := 63) (l2 := 24) (by decide) hp]
  simp only [unpack, slice]
  omega

/-! ### The opcode table -/

/-- Every mask takes in the whole opcode, so a word of a row has the row's opcode. -/
theorem opcode_of_row {row : OpcodeRow} (hrow : row ∈ opcodeTable) {c : Word}
    (h : c &&& row.mask = row.pattern) : c &&& 0xFF = row.pattern := by
  have hopcode : ∀ row ∈ opcodeTable,
      row.mask &&& 0xFF = 0xFF ∧ row.pattern &&& 0xFF = row.pattern := by decide
  obtain ⟨hmask, hpattern⟩ := hopcode row hrow
  rw [← hmask, ← BitVec.and_assoc, h, hpattern]

/-- The rows differ in their opcodes. -/
theorem row_eq_of_pattern_eq : ∀ r₁ ∈ opcodeTable, ∀ r₂ ∈ opcodeTable,
    r₁.pattern = r₂.pattern → r₁ = r₂ := by decide

/-- A decoded word matches a row, the one at its opcode's place in the table. -/
theorem exists_row_of_decode {c : Word} {i : Instr} (h : decode c = .ok i) :
    ∃ row ∈ opcodeTable, c &&& row.mask = row.pattern := by
  have hf := decode_ok_iff.mp h
  have hop : (fieldsOf i).op - 1 < opcodeTable.length := by
    have := fieldsOf_op_range i
    simp only [opcodeTable, List.length_cons, List.length_nil]
    omega
  refine ⟨opcodeTable[(fieldsOf i).op - 1], List.getElem_mem hop, ?_⟩
  cases i with
  | add | sub => refine (maskR3_iff ?_).mpr ?_ <;> simp [opcodeTable, fieldsOf, hf]
  | muls | shl | shr => refine (maskRI_iff ?_).mpr ?_ <;> simp [opcodeTable, fieldsOf, hf]
  | bitlen => refine (maskR1_iff ?_).mpr ?_ <;> simp [opcodeTable, fieldsOf, hf]
  | cmp => refine (maskR2_iff ?_).mpr ?_ <;> simp [opcodeTable, fieldsOf, hf]
  | reduce | reducex | modinv => refine (maskRM_iff ?_).mpr ?_ <;> simp [opcodeTable, fieldsOf, hf]
  | modmul | modexp => refine (maskR4_iff ?_).mpr ?_ <;> simp [opcodeTable, fieldsOf, hf]

/-- A word that is no command is rejected, for one of the two reasons. -/
theorem decode_error_of_forall_ne {c : Word} (h : ∀ i, decode c ≠ .ok i) :
    ∃ e, decode c = .error e := by
  cases hc : decode c with
  | error e => exact ⟨e, rfl⟩
  | ok i => exact absurd hc (h i)

/-- R86: an assigned opcode with a nonzero must-be-zero field is illegal. -/
theorem decode_error_of_nonzeroUnused {row : OpcodeRow} (hrow : row ∈ opcodeTable) {c : Word}
    (hop : c &&& 0xFF = row.pattern) (hne : c &&& row.mask ≠ row.pattern) :
    ∃ e, decode c = .error e := by
  refine decode_error_of_forall_ne fun i hi => ?_
  obtain ⟨row', hrow', hmatch⟩ := exists_row_of_decode hi
  have hpattern : row'.pattern = row.pattern := (opcode_of_row hrow' hmatch).symm.trans hop
  exact hne (row_eq_of_pattern_eq row' hrow' row hrow hpattern ▸ hmatch)

/-- Settles O1: `decode_ok_iff` both ways; and a word that decodes matches the row of its opcode. -/
theorem decodeEncodeRoundTrip : Obligations.DecodeEncodeRoundTrip := by
  unfold Obligations.DecodeEncodeRoundTrip
  refine ⟨fun i hi => decode_encode hi, fun c i h => ?_,
    fun row hrow c => decode_error_of_nonzeroUnused hrow⟩
  obtain ⟨hwf, hf⟩ := decode_ok h
  exact ⟨hwf, encode_of_unpack hf⟩

/-! ### The rows and the fields they cut out -/

theorem unpack_eq_iff {c : Word} {f : Fields} :
    unpack c = f ↔ (unpack c).op = f.op ∧ (unpack c).rd = f.rd ∧ (unpack c).rs1 = f.rs1 ∧
      (unpack c).rs2 = f.rs2 ∧ (unpack c).rm = f.rm ∧ (unpack c).z = f.z ∧ (unpack c).imm = f.imm :=
  .of_eq (Fields.mk.injEq ..)

@[simp] theorem regField_rd (c : Word) : (regField c 8).val = (unpack c).rd := rfl
@[simp] theorem regField_rs1 (c : Word) : (regField c 12).val = (unpack c).rs1 := rfl
@[simp] theorem regField_rs2 (c : Word) : (regField c 16).val = (unpack c).rs2 := rfl
@[simp] theorem regField_rm (c : Word) : (regField c 20).val = (unpack c).rm := rfl
@[simp] theorem field_imm (c : Word) : field c 63 32 = (unpack c).imm := rfl

/-- Settles O2: row by row, the mask and the decoder ask the same of the word's fields; and a word
has one opcode. -/
theorem opcodeTableIsTheDecoder : Obligations.OpcodeTableIsTheDecoder := by
  unfold Obligations.OpcodeTableIsTheDecoder
  constructor
  · intro c
    rw [maskR3_iff (by decide), maskR3_iff (by decide), maskRI_iff (by decide), maskRI_iff (by decide),
      maskRI_iff (by decide), maskR1_iff (by decide), maskR2_iff (by decide), maskRM_iff (by decide),
      maskRM_iff (by decide), maskR4_iff (by decide), maskR4_iff (by decide), maskRM_iff (by decide)]
    simp [decode_ok_iff, unpack_eq_iff, fieldsOf]
  · intro c r₁ h₁ r₂ h₂ hm₁ hm₂
    exact row_eq_of_pattern_eq r₁ h₁ r₂ h₂ ((opcode_of_row h₁ hm₁).symm.trans (opcode_of_row h₂ hm₂))

/-! ### The encoding as a sum -/

theorem packNat_lt {f : Fields} (h : f.Fit) : packNat f < 2 ^ 64 := by
  obtain ⟨hop, hrd, hrs1, hrs2, hrm, hz, himm⟩ := h
  simp only [packNat]
  omega

/-- The sum of R87 fits the word. -/
theorem toNat_encode {i : Instr} (h : i.WellFormed) : (encode i).toNat = packNat (fieldsOf i) := by
  rw [encode, BitVec.toNat_ofNat, Nat.mod_eq_of_lt (packNat_lt (fieldsOf_fit h))]

/-- Settles O3: `toNat_encode` at each command; a field that its format does not use adds 0. -/
theorem encodingIsTheFieldSum : Obligations.EncodingIsTheFieldSum := by
  unfold Obligations.EncodingIsTheFieldSum
  -- The well-formedness of a command without an immediate; `himm` is that of the others.
  have hnoImm : 0 < 2 ^ 32 := Nat.two_pow_pos 32
  refine ⟨fun rd rs1 rs2 => ⟨?_, ?_⟩, fun rd rs1 imm himm => ⟨?_, ?_, ?_⟩, fun rs1 rs2 => ⟨?_, ?_⟩,
    fun rd rs1 rm => ⟨?_, ?_, ?_⟩, fun rd rs1 rs2 rm => ⟨?_, ?_⟩, by decide, by decide, by decide⟩
  all_goals
    rw [toNat_encode (by assumption)]
    simp [fieldsOf, packNat]

/-- Settles O4: closed words, decoded by evaluation. -/
theorem specWordsDecode : Obligations.SpecWordsDecode := by
  unfold Obligations.SpecWordsDecode
  decide

/-! ### Illegal words -/

/-- R89: opcode `0x00` and the opcodes from `0x0D` up are unassigned. -/
theorem decode_error_of_unassigned {c : Word} (h : field c 7 0 = 0 ∨ 0x0D ≤ field c 7 0) :
    ∃ e, decode c = .error e := by
  refine decode_error_of_forall_ne fun i hi => ?_
  have hop : field c 7 0 = (fieldsOf i).op := congrArg Fields.op (decode_ok_iff.mp hi)
  have hrange := fieldsOf_op_range i
  omega

end Sys2Proof
end

section
/-!
PROOFS. From decode to completion (R93): the step that completes a command, and the order of its checks.
-/
namespace Sys2Proof.Machine
open Sys2Proof.Statements

/-! ### The completing step -/

/-- Settles O51: a due step is `runCommand`, which finds CMD as acceptance left it. -/
theorem stepRunsDecodedCommand : Obligations.StepRunsDecodedCommand := by
  unfold Obligations.StepRunsDecodedCommand
  intro s i hdue hi
  rw [step_due hdue, runCommand, atTurn_cmd, hi]

/-- An illegal word completes with IllegalCommand and does nothing else (R204). -/
theorem step_of_illegal {s : State} {e : Illegal} (hdue : s.Due) (he : decode s.cmd = .error e) :
    step s = .next (raise .illegalCommand s.atTurn) := by
  rw [step_due hdue, runCommand, atTurn_cmd, he]

/-- Settles O5: the opcodes 1 to 12 are all there are, each with its row of must-be-zero bits. -/
theorem illegalWordsOnlyFail : Obligations.IllegalWordsOnlyFail := by
  unfold Obligations.IllegalWordsOnlyFail
  refine ⟨fun c => decode_error_of_unassigned, fun row hrow c => decode_error_of_nonzeroUnused hrow,
    decode_error_of_unassigned (.inl rfl), fun s e hdue he => step_of_illegal hdue he⟩

/-! ### The checks of a decoded command -/

theorem aliasesOne_iff (rd rs1 : Reg) : aliasesOne rd rs1 = true ↔ rd = rs1 := by
  simp [aliasesOne]

theorem aliasesTwo_iff (rd a b : Reg) : aliasesTwo rd a b = true ↔ rd = a ∨ rd = b := by
  simp [aliasesTwo]

theorem aliasesThree_iff (rd rs1 rs2 rm : Reg) :
    aliasesThree rd rs1 rs2 rm = true ↔ rd = rs1 ∨ rd = rs2 ∨ rd = rm := by
  simp [aliasesThree, or_assoc]

/-- The in-place check of a command as `exec` makes it (R88). -/
def failsInPlaceCheck (i : Instr) : Bool :=
  match i with
  | .add rd rs1 rs2 => aliasesTwo rd rs1 rs2
  | .sub rd rs1 rs2 => aliasesTwo rd rs1 rs2
  | .muls rd rs1 _ => aliasesOne rd rs1
  | .shl _ _ _ => false
  | .shr _ _ _ => false
  | .bitlen _ => false
  | .cmp _ _ => false
  | .reduce rd rs1 rm => aliasesTwo rd rs1 rm
  | .reducex rd rs1 rm => aliasesTwo rd rs1 rm
  | .modmul rd rs1 rs2 rm => aliasesThree rd rs1 rs2 rm
  | .modexp rd rs1 rs2 rm => aliasesThree rd rs1 rs2 rm
  | .modinv rd rs1 rm => aliasesTwo rd rs1 rm

theorem failsInPlaceCheck_iff (i : Instr) : failsInPlaceCheck i = true ↔ ForbiddenInPlace i := by
  cases i <;>
    simp [failsInPlaceCheck, ForbiddenInPlace, allowsInPlace, dest, sources, aliasesOne_iff,
      aliasesTwo_iff, aliasesThree_iff]

/-- A forbidden in-place use raises AliasError before anything is computed (R88, R205). -/
theorem exec_of_forbiddenInPlace {i : Instr} (h : ForbiddenInPlace i) (s : State) :
    exec i s = .next (raise .aliasError s) := by
  have hcheck := (failsInPlaceCheck_iff i).mpr h
  cases i with
  | shl | shr | bitlen | cmp => simp [failsInPlaceCheck] at hcheck
  | add | sub | muls | reduce | reducex | modmul | modexp | modinv =>
    exact congrArg Host.Outcome.next (if_pos hcheck)

/-- Past the in-place check a zero modulus raises DomainError (R201). -/
theorem exec_of_zeroModulus {i : Instr} (h : ¬ ForbiddenInPlace i) {rm : Reg}
    (hrm : modulus i = some rm) {s : State} (hz : val (s.reg rm) = 0) : exec i s = .next (raise .domainError s) := by
  have hcheck := (failsInPlaceCheck_iff i).not.mpr h
  have hzero := (isZero_iff (s.reg rm)).mpr hz
  cases i with
  | add | sub | muls | shl | shr | bitlen | cmp => simp [modulus] at hrm
  | reduce | reducex | modmul | modexp | modinv =>
    obtain rfl := Option.some.inj hrm
    exact congrArg Host.Outcome.next ((if_neg hcheck).trans (if_pos hzero))

/-- Past the in-place check a command without a modulus check raises nothing. -/
theorem err_of_noModulus {i : Instr} (h : ¬ ForbiddenInPlace i) (hrm : modulus i = none)
    {s t : State} (ht : exec i s = .next t) : t.status.err = 0 := by
  have hcheck := (failsInPlaceCheck_iff i).not.mpr h
  cases i with
  | reduce | reducex | modmul | modexp | modinv => simp [modulus] at hrm
  | add | sub | muls =>
    obtain rfl := Host.Outcome.next.inj ht
    exact congrArg (fun u : State => u.status.err) (if_neg hcheck)
  | shl | shr | bitlen | cmp =>
    obtain rfl := Host.Outcome.next.inj ht
    rfl

/-- Past both checks a modular command other than MODINV raises nothing. -/
theorem err_of_nonzeroModulus {i : Instr} (h : ¬ ForbiddenInPlace i) {rm : Reg}
    (hrm : modulus i = some rm) (hi : ∀ rd rs1, i ≠ .modinv rd rs1 rm) {s t : State}
    (hz : val (s.reg rm) ≠ 0) (ht : exec i s = .next t) : t.status.err = 0 := by
  have hcheck := (failsInPlaceCheck_iff i).not.mpr h
  have hzero := (isZero_iff (s.reg rm)).not.mpr hz
  cases i with
  | add | sub | muls | shl | shr | bitlen | cmp => simp [modulus] at hrm
  | modinv =>
    obtain rfl := Option.some.inj hrm
    exact absurd rfl (hi _ _)
  | reduce | reducex | modmul | modexp =>
    obtain rfl := Option.some.inj hrm
    obtain rfl := Host.Outcome.next.inj ht
    exact congrArg (fun u : State => u.status.err) ((if_neg hcheck).trans (if_neg hzero))

/-- MODINV past both checks raises NoInverseError exactly where the operands have a common factor
(R202). -/
theorem err_of_modinv {rd rs1 rm : Reg} {s t : State} (h : ¬ ForbiddenInPlace (.modinv rd rs1 rm))
    (hinv : s.Inv) (hz : val (s.reg rm) ≠ 0) (ht : exec (.modinv rd rs1 rm) s = .next t) :
    (Nat.gcd (val (s.reg rs1)) (val (s.reg rm)) ≠ 1 → t.status.err = 2) ∧
      (Nat.gcd (val (s.reg rs1)) (val (s.reg rm)) = 1 → t.status.err = 0) := by
  have hcheck : ¬ aliasesTwo rd rs1 rm = true := (failsInPlaceCheck_iff (.modinv rd rs1 rm)).not.mpr h
  have hzero := (isZero_iff (s.reg rm)).not.mpr hz
  obtain ⟨hnone, hsome⟩ := modinvWide_spec (A := s.reg rs1) (hinv.reg_length rm) (Nat.pos_of_ne_zero hz)
  rw [exec, execModinv, if_neg hcheck, if_neg hzero] at ht
  refine ⟨fun hgcd => ?_, fun hgcd => ?_⟩
  · rw [hnone hgcd] at ht
    obtain rfl := Host.Outcome.next.inj ht
    rfl
  · obtain ⟨X, hX, -⟩ := hsome hgcd
    rw [hX] at ht
    obtain rfl := Host.Outcome.next.inj ht
    rfl

theorem err_of_raise {s t : State} {e : Error} {a : Answer} (ha : a = .next (raise e s))
    (ht : a = .next t) : t.status.err = errorCode e := by
  obtain rfl := Host.Outcome.next.inj (ha.symm.trans ht)
  rfl

/-- Settles O29: the step runs the decoded command, whose checks are the lemmas above, in their order. -/
theorem errorPriority : Obligations.ErrorPriority := by
  unfold Obligations.ErrorPriority
  intro s t hinv hdue hstep
  refine ⟨fun e he => err_of_raise (step_of_illegal hdue he) hstep, fun i hi => ?_⟩
  have hexec : exec i s.atTurn = .next t := (stepRunsDecodedCommand s i hdue hi).symm.trans hstep
  simp only [← atTurn_reg s]
  refine ⟨fun hf => err_of_raise (exec_of_forbiddenInPlace hf _) hexec, fun hf => ⟨fun hrm => ?_, ?_⟩⟩
  · exact err_of_noModulus hf hrm hexec
  · intro rm hrm
    refine ⟨fun hz => err_of_raise (exec_of_zeroModulus hf hrm hz) hexec, fun hz => ⟨?_, fun hne => ?_⟩⟩
    · rintro rd rs1 rfl
      exact err_of_modinv hf hinv.atTurn hz hexec
    · exact err_of_nonzeroModulus hf hrm hne hz hexec

end Sys2Proof.Machine
end

section
/-!
PROOFS. The encoding of a command from its row of the opcode table (R84, R86): the form in which each
command's own statement asks for it.
-/
namespace Sys2Proof
open Sys2Proof.Machine Sys2Proof.Statements

theorem and_opcodeMask_eq_iff {c p : Word} : c &&& 0xFF = p ↔ field c 7 0 = p.toNat := by
  rw [← BitVec.toNat_inj, BitVec.toNat_and]
  simpa [field] using (Nat.and_two_pow_sub_one_eq_mod c.toNat 8).congr_left

/-- A command is encoded as its row says, where the row's mask asks for the opcode and for the format's
unused fields to be zero. -/
theorem encoding_of_row {row : OpcodeRow} (hrow : row ∈ opcodeTable) {unusedAreZero : Word → Prop}
    {i : Word → Instr}
    (hmask : ∀ c, c &&& row.mask = row.pattern ↔ field c 7 0 = row.pattern.toNat ∧ unusedAreZero c)
    (hdecode : ∀ c, c &&& row.mask = row.pattern → decode c = .ok (i c)) :
    Encoding row.pattern.toNat unusedAreZero i := by
  intro c hop
  refine ⟨fun hzero => hdecode c ((hmask c).mpr ⟨hop, hzero⟩), fun hnonzero => ?_⟩
  refine decode_error_of_nonzeroUnused hrow (and_opcodeMask_eq_iff.mpr hop) fun hmatch => ?_
  obtain ⟨-, hzero⟩ := (hmask c).mp hmatch
  exact hnonzero hzero

/-- ADD, SUB: the unused fields of format R3 lie side by side, from bit 20 up. -/
theorem maskR3_iff_field {p : Word} (hp : p.toNat < 256) (c : Word) :
    c &&& 0xFFFFFFFFFFF000FF = p ↔ field c 7 0 = p.toNat ∧ field c 63 20 = 0 := by
  rw [mask_zones_iff (h1 := 63) (l1 := 20) (h2 := 63) (l2 := 20) (by decide) hp, and_self]
  rfl

theorem encoding_add : Encoding 0x01 (fun c => field c 63 20 = 0)
    (fun c => .add (regField c 8) (regField c 12) (regField c 16)) := by
  refine encoding_of_row (row := opcodeTable[0]) (by decide) (maskR3_iff_field (by decide)) fun c => ?_
  obtain ⟨hadd, -⟩ := opcodeTableIsTheDecoder.1 c
  exact hadd.mp

theorem encoding_sub : Encoding 0x02 (fun c => field c 63 20 = 0)
    (fun c => .sub (regField c 8) (regField c 12) (regField c 16)) := by
  refine encoding_of_row (row := opcodeTable[1]) (by decide) (maskR3_iff_field (by decide)) fun c => ?_
  obtain ⟨-, hsub, -⟩ := opcodeTableIsTheDecoder.1 c
  exact hsub.mp

end Sys2Proof
end

section
/-!
PROOFS. Multi-word addition and subtraction: their values at every length (R114), the commands ADD and
SUB (R112, R113), and that SUB undoes ADD (R115).
-/
namespace Sys2Proof.Machine
open Sys2Proof.Statements

/-! ### The functions -/

section Values

variable {A B : Wide} (h : A.length = B.length)
include h

theorem val_addWide : val (addWide A B).1 = (val A + val B) % 2 ^ (64 * A.length) := by
  obtain ⟨hlength, -, hsum⟩ := addWide_spec h
  have hlt := val_lt (addWide A B).1
  rw [hlength] at hlt
  rw [← hsum, Nat.add_mul_mod_self_left, Nat.mod_eq_of_lt hlt]

theorem addWide_carry_iff : (addWide A B).2 = 1 ↔ 2 ^ (64 * A.length) ≤ val A + val B := by
  obtain ⟨hlength, hcarry, hsum⟩ := addWide_spec h
  have hlt := val_lt (addWide A B).1
  rw [hlength] at hlt
  obtain hc | hc := Nat.le_one_iff_eq_zero_or_eq_one.mp hcarry <;> rw [hc] at hsum ⊢ <;> omega

theorem val_subWide :
    (val (subWide A B).1 : Int) = val A - val B + (subWide A B).2 * 2 ^ (64 * A.length) := by
  obtain ⟨-, -, hdiff⟩ := subWide_spec h
  have hdiff' : (val (subWide A B).1 + val B : Int) = val A + 2 ^ (64 * A.length) * (subWide A B).2 := by
    exact_mod_cast hdiff
  linarith

theorem val_subWide_emod :
    (val (subWide A B).1 : Int) = ((val A : Int) - val B) % 2 ^ (64 * A.length) := by
  obtain ⟨hlength, -, -⟩ := subWide_spec h
  have hlt : (val (subWide A B).1 : Int) < 2 ^ (64 * A.length) := by
    exact_mod_cast hlength ▸ val_lt (subWide A B).1
  calc (val (subWide A B).1 : Int)
      = val (subWide A B).1 % 2 ^ (64 * A.length) :=
        (Int.emod_eq_of_lt (Int.natCast_nonneg _) hlt).symm
    _ = ((val A : Int) - val B) % 2 ^ (64 * A.length) := by
        rw [val_subWide h, Int.add_mul_emod_self_right]

/-- Subtracting the second addend from a sum gives the first one back, and the borrow is the carry: both
say whether `2^(64 L)` is missing from the sum (R115). -/
theorem subWide_addWide : subWide (addWide A B).1 B = (A, (addWide A B).2) := by
  obtain ⟨hlength, -, hsum⟩ := addWide_spec h
  obtain ⟨hlength', -, hdiff⟩ := subWide_spec (hlength.trans h)
  rw [hlength] at hdiff hlength'
  have hlt := val_lt (subWide (addWide A B).1 B).1
  rw [hlength'] at hlt
  have heq : val (subWide (addWide A B).1 B).1 + 2 ^ (64 * A.length) * (addWide A B).2 =
      val A + 2 ^ (64 * A.length) * (subWide (addWide A B).1 B).2 := by omega
  have hval : val (subWide (addWide A B).1 B).1 = val A := by
    have hmod := congrArg (· % 2 ^ (64 * A.length)) heq
    simpa [Nat.mod_eq_of_lt hlt, Nat.mod_eq_of_lt (val_lt A)] using hmod
  have hborrow : (subWide (addWide A B).1 B).2 = (addWide A B).2 := by
    rw [hval] at heq
    exact (Nat.eq_of_mul_eq_mul_left (Nat.two_pow_pos _) (Nat.add_left_cancel heq)).symm
  exact Prod.ext (eq_of_val_eq hlength' hval) hborrow

end Values

/-- Settles O18: the laws of the two functions, each its own lemma. -/
theorem addSubValues : Obligations.AddSubValues := by
  unfold Obligations.AddSubValues
  intro A B h
  obtain ⟨hlengthAdd, -, hsum⟩ := addWide_spec h
  obtain ⟨hlengthSub, -, -⟩ := subWide_spec h
  exact ⟨hlengthAdd, by rw [Nat.mul_comm, hsum], val_addWide h, addWide_carry_iff h, hlengthSub,
    val_subWide h, val_subWide_emod h, subWide_borrow_iff h⟩

/-! ### The commands -/

/-- A carry or borrow of 0 or 1, as the flag shows it. -/
theorem bne_zero_iff_eq_one {c : Nat} (hc : c ≤ 1) : (c != 0) = true ↔ c = 1 := by
  rw [bne_iff_ne]
  omega

theorem forbiddenInPlace_add_iff (rd rs1 rs2 : Reg) :
    ForbiddenInPlace (.add rd rs1 rs2) ↔ rd = rs1 ∨ rd = rs2 :=
  (failsInPlaceCheck_iff _).symm.trans (aliasesTwo_iff rd rs1 rs2)

theorem forbiddenInPlace_sub_iff (rd rs1 rs2 : Reg) :
    ForbiddenInPlace (.sub rd rs1 rs2) ↔ rd = rs1 ∨ rd = rs2 :=
  (failsInPlaceCheck_iff _).symm.trans (aliasesTwo_iff rd rs1 rs2)

/-- Past the in-place check ADD completes with the sum and the carry (R112). -/
theorem exec_add_of_ne {rd rs1 rs2 : Reg} (h1 : rd ≠ rs1) (h2 : rd ≠ rs2) (s : State) :
    exec (.add rd rs1 rs2) s = .next (complete (addStatus (addWide (s.reg rs1) (s.reg rs2)).2)
      (s.setReg rd (addWide (s.reg rs1) (s.reg rs2)).1)) :=
  congrArg Host.Outcome.next (if_neg fun ha => ((aliasesTwo_iff rd rs1 rs2).mp ha).elim h1 h2)

/-- Past the in-place check SUB completes with the difference and the borrow (R113). -/
theorem exec_sub_of_ne {rd rs1 rs2 : Reg} (h1 : rd ≠ rs1) (h2 : rd ≠ rs2) (s : State) :
    exec (.sub rd rs1 rs2) s = .next (complete (subStatus (subWide (s.reg rs1) (s.reg rs2)).2)
      (s.setReg rd (subWide (s.reg rs1) (s.reg rs2)).1)) :=
  congrArg Host.Outcome.next (if_neg fun ha => ((aliasesTwo_iff rd rs1 rs2).mp ha).elim h1 h2)

/-- The sources of a command have one length. -/
theorem State.Inv.reg_length_eq {s : State} (h : s.Inv) (i j : Reg) :
    (s.reg i).length = (s.reg j).length :=
  (h.reg_length i).trans (h.reg_length j).symm

/-- Settles O6, by the laws of `addWide` at `N` words. -/
theorem addCommand : Obligations.AddCommand := by
  unfold Obligations.AddCommand
  refine ⟨encoding_add, fun s rd rs1 rs2 hinv => ⟨fun hf => ?_, fun ⟨h1, h2⟩ => ?_⟩⟩
  · exact exec_of_forbiddenInPlace ((forbiddenInPlace_add_iff rd rs1 rs2).mpr hf) s
  · have h := hinv.reg_length_eq rs1 rs2
    obtain ⟨hlength, hcarry, -⟩ := addWide_spec h
    have hvalue := val_addWide h
    have hflag := (bne_zero_iff_eq_one hcarry).trans (addWide_carry_iff h)
    rw [hinv.reg_length rs1] at hlength hvalue hflag
    exact ⟨_, _, hlength, hvalue, hflag, exec_add_of_ne h1 h2 s⟩

/-- Settles O7, by the laws of `subWide` at `N` words. -/
theorem subCommand : Obligations.SubCommand := by
  unfold Obligations.SubCommand
  refine ⟨encoding_sub, fun s rd rs1 rs2 hinv => ⟨fun hf => ?_, fun ⟨h1, h2⟩ => ?_⟩⟩
  · exact exec_of_forbiddenInPlace ((forbiddenInPlace_sub_iff rd rs1 rs2).mpr hf) s
  · have h := hinv.reg_length_eq rs1 rs2
    obtain ⟨hlength, hborrow, -⟩ := subWide_spec h
    have hvalue := val_subWide_emod h
    have hflag := (bne_zero_iff_eq_one hborrow).trans (subWide_borrow_iff h)
    rw [hinv.reg_length rs1] at hlength hvalue
    exact ⟨_, _, hlength, hvalue, hflag, exec_sub_of_ne h1 h2 s⟩

/-- Settles O25: SUB finds ADD's sum in `rd` and the second addend unchanged, so `subWide_addWide` gives
its result and its borrow. -/
theorem subUndoesAdd : Obligations.SubUndoesAdd := by
  unfold Obligations.SubUndoesAdd
  intro s rd rs1 rs2 rd' hinv h1 h2 h1' h2'
  refine ⟨_, _, exec_add_of_ne h1 h2 s, exec_sub_of_ne h1' h2' _, ?_⟩
  have hback := subWide_addWide (hinv.reg_length_eq rs1 rs2)
  simp only [complete_reg, complete_status, reg_setReg_same, reg_setReg_ne s _ h2, hback, true_and]
  rfl

end Sys2Proof.Machine
end

section
/-!
PROOFS. Multiplication by a 32-bit scalar: the exact product and its top word (R121), the command MULS
(R122), and MULS followed by REDUCEX, which is multiplication modulo a register (R122, R153).
-/
namespace Sys2Proof.Machine
open Sys2Proof.Statements

/-! ### The function -/

/-- The product is its low `L` words and the overflow word above them. -/
theorem val_mulsWide_take_add_top {A : Wide} {s : Nat} (hs : s < 2 ^ 32) :
    val ((mulsWide A s).take A.length) + (wordAt (mulsWide A s) A.length).toNat * 2 ^ (64 * A.length) =
      val A * s := by
  obtain ⟨hlength, hvalue⟩ := mulsWide_spec (A := A) hs
  rw [val_take_add_top hlength, hvalue]

/-- The overflow word is the quotient of the product by `2^(64 L)`: the low words are its remainder. -/
theorem toNat_mulsWide_top {A : Wide} {s : Nat} (hs : s < 2 ^ 32) :
    (wordAt (mulsWide A s) A.length).toNat = val A * s / 2 ^ (64 * A.length) := by
  obtain ⟨-, hvalue⟩ := mulsWide_spec (A := A) hs
  have hsum := val_mulsWide_take_add_top (A := A) hs
  rw [val_take, hvalue] at hsum
  exact Nat.eq_of_mul_eq_mul_right (Nat.two_pow_pos (64 * A.length))
    (Nat.add_left_cancel (hsum.trans (Nat.mod_add_div' _ _).symm))

theorem toNat_mulsWide_top_lt {A : Wide} {s : Nat} (hs : s < 2 ^ 32) :
    (wordAt (mulsWide A s) A.length).toNat < 2 ^ 32 - 1 := by
  rw [toNat_mulsWide_top hs]
  refine Nat.div_lt_of_lt_mul ?_
  calc val A * s ≤ val A * (2 ^ 32 - 1) := Nat.mul_le_mul_left _ (Nat.le_pred_of_lt hs)
    _ < 2 ^ (64 * A.length) * (2 ^ 32 - 1) := Nat.mul_lt_mul_of_pos_right (val_lt A) (by decide)

/-- Settles O19: the value and length of `mulsWide_spec`, and the bound on its top word. -/
theorem scalarProductIsExact : Obligations.ScalarProductIsExact := by
  unfold Obligations.ScalarProductIsExact
  intro A s hs
  obtain ⟨hlength, hvalue⟩ := mulsWide_spec (A := A) hs
  exact ⟨hlength, hvalue, Nat.le_pred_of_lt (toNat_mulsWide_top_lt hs)⟩

/-- The overflow word is nonzero exactly when the product does not fit the `L` words. -/
theorem mulsWide_top_ne_zero_iff {A : Wide} {s : Nat} (hs : s < 2 ^ 32) :
    wordAt (mulsWide A s) A.length ≠ 0 ↔ 2 ^ (64 * A.length) ≤ val A * s := by
  rw [ne_eq, ← BitVec.toNat_inj, toNat_mulsWide_top hs]
  exact Nat.div_ne_zero_iff.trans (and_iff_right (Nat.two_pow_pos _).ne')

/-! ### The command -/

/-- MULS, SHL, SHR: the unused fields of format RI lie side by side, in bits 31 to 16. -/
theorem maskRI_iff_field {p : Word} (hp : p.toNat < 256) (c : Word) :
    c &&& 0x00000000FFFF00FF = p ↔ field c 7 0 = p.toNat ∧ field c 31 16 = 0 := by
  rw [mask_zones_iff (h1 := 31) (l1 := 16) (h2 := 31) (l2 := 16) (by decide) hp, and_self]
  rfl

theorem encoding_muls : Encoding 0x03 (fun c => field c 31 16 = 0)
    (fun c => .muls (regField c 8) (regField c 12) (field c 63 32)) := by
  refine encoding_of_row (row := opcodeTable[2]) (by decide) (maskRI_iff_field (by decide)) fun c => ?_
  obtain ⟨-, -, hmuls, -⟩ := opcodeTableIsTheDecoder.1 c
  exact hmuls.mp

theorem forbiddenInPlace_muls_iff (rd rs1 : Reg) (imm : Nat) :
    ForbiddenInPlace (.muls rd rs1 imm) ↔ rd = rs1 :=
  (failsInPlaceCheck_iff _).symm.trans (aliasesOne_iff rd rs1)

/-- The state after a MULS that passes the in-place check: the low words of the product in `rd`, word
`N` in XW (R122). -/
def mulsDone (rd rs1 : Reg) (imm : Nat) (s : State) : State :=
  let P := mulsWide (s.reg rs1) imm
  complete (mulsStatus (wordAt P s.n)) { s.setReg rd (P.take s.n) with xw := wordAt P s.n }

theorem exec_muls_of_ne {rd rs1 : Reg} (h : rd ≠ rs1) (imm : Nat) (s : State) :
    exec (.muls rd rs1 imm) s = .next (mulsDone rd rs1 imm s) :=
  congrArg Host.Outcome.next (if_neg ((aliasesOne_iff rd rs1).not.mpr h))

/-- Settles O8, by the laws of `mulsWide` at `N` words. -/
theorem mulsCommand : Obligations.MulsCommand := by
  unfold Obligations.MulsCommand
  refine ⟨encoding_muls, fun s rd rs1 imm hinv himm => ⟨fun hf => ?_, fun hne => ?_⟩⟩
  · exact exec_of_forbiddenInPlace ((forbiddenInPlace_muls_iff rd rs1 imm).mpr hf) s
  · obtain ⟨hlength, -⟩ := mulsWide_spec (A := s.reg rs1) himm
    have hsum := val_mulsWide_take_add_top (A := s.reg rs1) himm
    have hfits := mulsWide_top_ne_zero_iff (A := s.reg rs1) himm
    rw [hinv.reg_length rs1] at hlength hsum hfits
    have hlow : ((mulsWide (s.reg rs1) imm).take s.n).length = s.n := by simp [hlength]
    exact ⟨_, _, _, hlow, hsum, bne_iff_ne, bne_iff_ne.trans hfits, exec_muls_of_ne hne imm s⟩

/-! ### MULS, then REDUCEX -/

/-- Past its two checks REDUCEX completes with the remainder of `{XW, R[rs1]}` (R153). -/
theorem exec_reducex_of_ne {rd rs1 rm : Reg} (h1 : rd ≠ rs1) (h2 : rd ≠ rm) {s : State}
    (hm : val (s.reg rm) ≠ 0) :
    exec (.reducex rd rs1 rm) s = .next (complete plainStatus
      (s.setReg rd (reduceWide s.n (extendedDividend s rs1) (s.reg rm)))) :=
  congrArg Host.Outcome.next
    ((if_neg fun ha => ((aliasesTwo_iff rd rs1 rm).mp ha).elim h1 h2).trans
      (if_neg ((isZero_iff (s.reg rm)).not.mpr hm)))

@[simp] theorem mulsDone_n (rd rs1 : Reg) (imm : Nat) (s : State) : (mulsDone rd rs1 imm s).n = s.n := rfl

theorem mulsDone_reg_of_ne {rd r : Reg} (h : rd ≠ r) (rs1 : Reg) (imm : Nat) (s : State) :
    (mulsDone rd rs1 imm s).reg r = s.reg r :=
  reg_setReg_ne s _ h

/-- The dividend REDUCEX finds after MULS is MULS's whole product: XW has kept the word that did not
fit (R122, R153). -/
theorem extendedDividend_mulsDone {s : State} (hinv : s.Inv) (rd rs1 : Reg) (imm : Nat) :
    extendedDividend (mulsDone rd rs1 imm s) rd = mulsWide (s.reg rs1) imm := by
  have hlength : (mulsWide (s.reg rs1) imm).length = s.n + 1 := by
    rw [mulsWide, length_mulsFrom, hinv.reg_length]
  calc extendedDividend (mulsDone rd rs1 imm s) rd
      = (mulsWide (s.reg rs1) imm).take s.n ++ [wordAt (mulsWide (s.reg rs1) imm) s.n] :=
        congrArg (· ++ _) (reg_setReg_same s rd _)
    _ = mulsWide (s.reg rs1) imm := by
        rw [wordAt_of_lt (by omega), List.take_append_getElem, ← hlength, List.take_length]

/-- Settles O28: REDUCEX divides MULS's exact product, and the modulus register is as MULS found it. -/
theorem mulsThenReducexIsScalarModmul : Obligations.MulsThenReducexIsScalarModmul := by
  unfold Obligations.MulsThenReducexIsScalarModmul
  intro s rd rs1 rm rd' imm hinv himm h1 hrm h1' hrm' hm
  have hkeep := mulsDone_reg_of_ne hrm rs1 imm s
  obtain ⟨hlength, hvalue⟩ := mulsWide_spec (A := s.reg rs1) himm
  rw [hinv.reg_length] at hlength
  obtain ⟨-, hrem⟩ := reduceWide_spec (hinv.reg_length rm)
    (hlength ▸ Nat.le_succ s.n : s.n ≤ (mulsWide (s.reg rs1) imm).length) (Nat.pos_of_ne_zero hm)
  refine ⟨_, _, exec_muls_of_ne h1 imm s, exec_reducex_of_ne h1' hrm' (hkeep.symm ▸ hm), ?_⟩
  rw [complete_reg, reg_setReg_same, mulsDone_n, extendedDividend_mulsDone hinv, hkeep, hrem, hvalue]

end Sys2Proof.Machine
end

section
/-!
PROOFS. The two shifts: what they compute for every vector and count, and one after the other (R132,
R135), the commands SHL and SHR (R133, R134), and their round trips (R135).
-/
namespace Sys2Proof.Machine
open Sys2Proof.Statements

/-! ### Counts that empty the vector -/

theorem val_shlWide_of_length_le {A : Wide} {k : Nat} (h : 64 * A.length ≤ k) :
    val (shlWide A k).1 = 0 := by
  rw [val_shlWide]
  exact Nat.mod_eq_zero_of_dvd ((pow_dvd_pow 2 h).mul_left (val A))

theorem val_shrWide_of_length_le {A : Wide} {k : Nat} (h : 64 * A.length ≤ k) :
    val (shrWide A k) = 0 := by
  rw [val_shrWide]
  exact Nat.div_eq_of_lt ((val_lt A).trans_le (Nat.pow_le_pow_right (by decide) h))

/-- Where every bit leaves the vector, a bit is lost exactly when there is a set one. -/
theorem shlWide_lost_iff_of_length_le {A : Wide} {k : Nat} (h : 64 * A.length ≤ k) :
    (shlWide A k).2 = true ↔ val A ≠ 0 := by
  rw [shlWide_lost_iff]
  constructor
  · intro hle hzero
    rw [hzero, Nat.zero_mul] at hle
    exact hle.not_gt (Nat.two_pow_pos _)
  · intro hne
    calc 2 ^ (64 * A.length) ≤ 2 ^ k := Nat.pow_le_pow_right (by decide) h
      _ ≤ val A * 2 ^ k := Nat.le_mul_of_pos_left _ (Nat.pos_of_ne_zero hne)

/-- Settles O20: the laws of the two functions, and the counts that empty the vector. -/
theorem shiftValues : Obligations.ShiftValues := by
  unfold Obligations.ShiftValues
  intro A k
  exact ⟨length_shlWide A k, val_shlWide A k, shlWide_lost_iff A k, length_shrWide A k,
    val_shrWide A k, fun h => ⟨val_shlWide_of_length_le h, val_shrWide_of_length_le h,
      shlWide_lost_iff_of_length_le h⟩⟩

/-! ### One shift after the other -/

/-- Shifting left and back keeps the bits that stayed in the vector: none, once the count reaches its
length, where the truncated difference is 0. -/
theorem val_shrWide_shlWide (A : Wide) (k : Nat) :
    val (shrWide (shlWide A k).1 k) = val A % 2 ^ (64 * A.length - k) := by
  obtain h | h := Nat.le_total k (64 * A.length)
  · have hsplit : 2 ^ (64 * A.length) = 2 ^ (64 * A.length - k) * 2 ^ k := by
      rw [← pow_add, Nat.sub_add_cancel h]
    rw [val_shrWide, val_shlWide, hsplit, Nat.mul_mod_mul_right,
      Nat.mul_div_cancel _ (Nat.two_pow_pos k)]
  · rw [val_shrWide, val_shlWide_of_length_le h, Nat.sub_eq_zero_of_le h, pow_zero, Nat.mod_one,
      Nat.zero_div]

/-- A left shift that loses no bit is undone by the right shift. -/
theorem shrWide_shlWide_of_not_lost {A : Wide} {k : Nat} (h : (shlWide A k).2 = false) :
    shrWide (shlWide A k).1 k = A := by
  have hlt : val A * 2 ^ k < 2 ^ (64 * A.length) := by
    rw [← Nat.not_le, ← shlWide_lost_iff, h]
    exact Bool.false_ne_true
  refine eq_of_val_eq (by simp) ?_
  rw [val_shrWide, val_shlWide_of_lt hlt, Nat.mul_div_cancel _ (Nat.two_pow_pos k)]

/-- Shifting right and back clears the low `k` bits; nothing can leave the vector on the way. -/
theorem val_shlWide_shrWide (A : Wide) (k : Nat) :
    val (shlWide (shrWide A k) k).1 = val A - val A % 2 ^ k := by
  have hback : val (shrWide A k) * 2 ^ k = val A - val A % 2 ^ k := by
    rw [val_shrWide, Nat.div_mul_self_eq_mod_sub_self]
  rw [← hback]
  refine val_shlWide_of_lt ?_
  rw [hback, length_shrWide]
  exact (Nat.sub_le _ _).trans_lt (val_lt A)

/-! ### The commands -/

theorem encoding_shl : Encoding 0x04 (fun c => field c 31 16 = 0)
    (fun c => .shl (regField c 8) (regField c 12) (field c 63 32)) := by
  refine encoding_of_row (row := opcodeTable[3]) (by decide) (maskRI_iff_field (by decide)) fun c => ?_
  obtain ⟨-, -, -, hshl, -⟩ := opcodeTableIsTheDecoder.1 c
  exact hshl.mp

theorem encoding_shr : Encoding 0x05 (fun c => field c 31 16 = 0)
    (fun c => .shr (regField c 8) (regField c 12) (field c 63 32)) := by
  refine encoding_of_row (row := opcodeTable[4]) (by decide) (maskRI_iff_field (by decide)) fun c => ?_
  obtain ⟨-, -, -, -, hshr, -⟩ := opcodeTableIsTheDecoder.1 c
  exact hshr.mp

/-- SHL completes whatever its registers are, in-place use included (R88, R133). -/
theorem exec_shl (rd rs1 : Reg) (imm : Nat) (s : State) :
    exec (.shl rd rs1 imm) s = .next (complete (shlStatus (shlWide (s.reg rs1) imm).2)
      (s.setReg rd (shlWide (s.reg rs1) imm).1)) := rfl

/-- SHR completes whatever its registers are, in-place use included (R88, R134). -/
theorem exec_shr (rd rs1 : Reg) (imm : Nat) (s : State) :
    exec (.shr rd rs1 imm) s =
      .next (complete plainStatus (s.setReg rd (shrWide (s.reg rs1) imm))) := rfl

/-- Settles O9, by the laws of `shlWide` at `N` words. -/
theorem shlCommand : Obligations.ShlCommand := by
  unfold Obligations.ShlCommand
  refine ⟨encoding_shl, fun s rd rs1 imm hinv => ?_⟩
  have hlength := length_shlWide (s.reg rs1) imm
  have hvalue := val_shlWide (s.reg rs1) imm
  have hlost := shlWide_lost_iff (s.reg rs1) imm
  rw [hinv.reg_length rs1] at hlength hvalue hlost
  exact ⟨_, _, hlength, hvalue, hlost, exec_shl rd rs1 imm s⟩

/-- Settles O10, by the laws of `shrWide` at `N` words. -/
theorem shrCommand : Obligations.ShrCommand := by
  unfold Obligations.ShrCommand
  refine ⟨encoding_shr, fun s rd rs1 imm hinv => ?_⟩
  have hlength := (length_shrWide (s.reg rs1) imm).trans (hinv.reg_length rs1)
  exact ⟨_, hlength, val_shrWide (s.reg rs1) imm, exec_shr rd rs1 imm s⟩

/-! ### The round trips -/

/-- Settles O26: the second command finds in `rd` what the first one wrote, whichever of the registers
are equal, so its result is that of one function after the other; OVF is the left shift's `lost`. -/
theorem shiftRoundTrips : Obligations.ShiftRoundTrips := by
  unfold Obligations.ShiftRoundTrips
  intro s rd rs1 rd' k hinv
  have hlength := hinv.reg_length rs1
  refine ⟨⟨_, _, exec_shl rd rs1 k s, exec_shr rd' rd k _, ?_⟩,
    ⟨_, _, exec_shr rd rs1 k s, exec_shl rd' rd k _, ?_⟩⟩ <;>
    simp only [complete_reg, complete_status, reg_setReg_same]
  · have hvalue := val_shrWide_shlWide (s.reg rs1) k
    rw [hlength] at hvalue
    refine ⟨shrWide_shlWide_of_not_lost, fun _ _ => hvalue, fun _ hk => ?_⟩
    rw [hvalue, Nat.sub_eq_zero_of_le hk, pow_zero, Nat.mod_one]
  · exact val_shlWide_shrWide (s.reg rs1) k

end Sys2Proof.Machine
end

section
/-!
PROOFS. Bit length and comparison: their values at every length (R142), their laws (R145), and the
commands BITLEN and CMP (R143, R144).
-/
namespace Sys2Proof.Machine
open Sys2Proof.Statements

/-! ### Bit length -/

/-- A nonzero value fits the bit length's bits and no fewer, which only one number satisfies (R142). -/
theorem bitlen_eq_iff_of_val_ne_zero {X : Wide} (hne : val X ≠ 0) (n : Nat) :
    bitlen X = n ↔ 1 ≤ n ∧ 2 ^ (n - 1) ≤ val X ∧ val X < 2 ^ n := by
  have hpos : bitlen X ≠ 0 := (bitlen_eq_zero_iff X).not.mpr hne
  have hbelow := bitlen_le_iff X (n - 1)
  have hfits := bitlen_le_iff X n
  omega

theorem bitlen_zeros (L : Nat) : bitlen (List.replicate L 0) = 0 :=
  (bitlen_eq_zero_iff _).mpr (val_zeros L)

theorem val_lt_of_bitlen_lt {X Y : Wide} (h : bitlen X < bitlen Y) : val X < val Y :=
  lt_of_not_ge fun hle => h.not_ge ((bitlen_le_iff Y _).mpr (hle.trans_lt (bitlen_spec X).1))

/-! ### Comparison -/

section Comparison

variable {A B : Wide} (h : A.length = B.length)
include h

/-- The comparison is the sign of the difference, so its laws are those of the sign. -/
theorem cmpWide_eq_sign : cmpWide A B = ((val A : Int) - val B).sign := by
  rw [cmpWide_eq h]
  obtain hlt | heq | hgt := Nat.lt_trichotomy (val A) (val B)
  · rw [if_pos hlt, Int.sign_eq_neg_one_of_neg (by omega)]
  · simp [heq]
  · rw [if_neg hgt.not_gt, if_pos hgt, Int.sign_eq_one_of_pos (by omega)]

theorem cmpWide_eq_neg_one_iff : cmpWide A B = -1 ↔ val A < val B := by
  rw [cmpWide_eq_sign h, Int.sign_eq_neg_one_iff_neg]
  omega

theorem cmpWide_eq_zero_iff : cmpWide A B = 0 ↔ val A = val B := by
  rw [cmpWide_eq_sign h, Int.sign_eq_zero_iff_zero]
  omega

theorem cmpWide_eq_one_iff : cmpWide A B = 1 ↔ val B < val A := by
  rw [cmpWide_eq_sign h, Int.sign_eq_one_iff_pos]
  omega

theorem cmpWide_swap : cmpWide A B = -cmpWide B A := by
  rw [cmpWide_eq_sign h, cmpWide_eq_sign h.symm, ← Int.sign_neg, neg_sub]

theorem subWide_no_borrow_iff : (subWide A B).2 = 0 ↔ val B ≤ val A := by
  obtain ⟨-, hborrow, -⟩ := subWide_spec h
  have hiff := subWide_borrow_iff h
  omega

end Comparison

theorem cmpWide_self (A : Wide) : cmpWide A A = 0 := (cmpWide_eq_zero_iff rfl).mpr rfl

/-- Settles O21: a nonzero value has one bit length, and the comparison is a sign. -/
theorem bitLengthAndOrderValues : Obligations.BitLengthAndOrderValues := by
  unfold Obligations.BitLengthAndOrderValues
  exact ⟨fun A => ⟨(bitlen_eq_zero_iff A).mpr, bitlen_eq_iff_of_val_ne_zero⟩, fun A B h =>
    ⟨cmpWide_eq_neg_one_iff h, cmpWide_eq_zero_iff h, cmpWide_eq_one_iff h⟩⟩

/-- Settles O24: each law by way of the values, which comparison, borrow and bit length order alike. -/
theorem compareLaws : Obligations.CompareLaws := by
  unfold Obligations.CompareLaws
  exact ⟨cmpWide_self, bitlen_zeros, fun A B h =>
    ⟨cmpWide_swap h, (cmpWide_nonneg_iff h).trans (subWide_no_borrow_iff h).symm,
      fun hlt => (cmpWide_eq_neg_one_iff h).mpr (val_lt_of_bitlen_lt hlt)⟩⟩

/-! ### The commands -/

/-- BITLEN: the unused fields of format R1 are the destination and all from bit 16 up. -/
theorem maskR1_iff_field {p : Word} (hp : p.toNat < 256) (c : Word) :
    c &&& 0xFFFFFFFFFFFF0FFF = p ↔
      field c 7 0 = p.toNat ∧ field c 11 8 = 0 ∧ field c 63 16 = 0 :=
  mask_zones_iff (by decide) hp

/-- CMP: the unused fields of format R2 are the destination and all from bit 20 up. -/
theorem maskR2_iff_field {p : Word} (hp : p.toNat < 256) (c : Word) :
    c &&& 0xFFFFFFFFFFF00FFF = p ↔
      field c 7 0 = p.toNat ∧ field c 11 8 = 0 ∧ field c 63 20 = 0 :=
  mask_zones_iff (by decide) hp

theorem encoding_bitlen : Encoding 0x06 (fun c => field c 11 8 = 0 ∧ field c 63 16 = 0)
    (fun c => .bitlen (regField c 12)) := by
  refine encoding_of_row (row := opcodeTable[5]) (by decide) (maskR1_iff_field (by decide)) fun c => ?_
  obtain ⟨-, -, -, -, -, hbitlen, -⟩ := opcodeTableIsTheDecoder.1 c
  exact hbitlen.mp

theorem encoding_cmp : Encoding 0x07 (fun c => field c 11 8 = 0 ∧ field c 63 20 = 0)
    (fun c => .cmp (regField c 12) (regField c 16)) := by
  refine encoding_of_row (row := opcodeTable[6]) (by decide) (maskR2_iff_field (by decide)) fun c => ?_
  obtain ⟨-, -, -, -, -, -, hcmp, -⟩ := opcodeTableIsTheDecoder.1 c
  exact hcmp.mp

/-- BITLEN completes with the bit length in LEN (R143). -/
theorem exec_bitlen (rs1 : Reg) (s : State) :
    exec (.bitlen rs1) s =
      .next (complete plainStatus { s with len := BitVec.ofNat 64 (bitlen (s.reg rs1)) }) := rfl

/-- CMP completes with the code of the comparison in STATUS (R144). -/
theorem exec_cmp (rs1 rs2 : Reg) (s : State) :
    exec (.cmp rs1 rs2) s = .next (complete (cmpStatus (cmpWide (s.reg rs1) (s.reg rs2))) s) := rfl

theorem State.Inv.bitlen_le {s : State} (h : s.Inv) (r : Reg) : bitlen (s.reg r) ≤ 64 * s.n :=
  h.reg_length r ▸ bitlen_le_length (s.reg r)

/-- The bit length of a register fits LEN, as `N` is at most 256 (R24). -/
theorem State.Inv.toNat_bitlen {s : State} (h : s.Inv) (r : Reg) :
    (BitVec.ofNat 64 (bitlen (s.reg r))).toNat = bitlen (s.reg r) := by
  have hle := h.bitlen_le r
  have hn := h.n_le
  rw [BitVec.toNat_ofNat, Nat.mod_eq_of_lt (by omega)]

/-- Settles O11: LEN holds the bit length itself, whose laws are those of `bitlen`. -/
theorem bitlenCommand : Obligations.BitlenCommand := by
  unfold Obligations.BitlenCommand
  refine ⟨encoding_bitlen, fun s rs1 hinv => ⟨.ofNat 64 (bitlen (s.reg rs1)), ?bound,
    fun hzero => ?zero, fun hne => ?nonzero, exec_bitlen rs1 s⟩⟩
  case bound => rw [hinv.toNat_bitlen]; exact hinv.bitlen_le rs1
  case zero => rw [(bitlen_eq_zero_iff _).mpr hzero]; rfl
  case nonzero =>
    rw [hinv.toNat_bitlen]
    exact (bitlen_eq_iff_of_val_ne_zero hne _).mp rfl

/-- Settles O12: in each of the three cases the comparison is known, and so is its code. -/
theorem cmpCommand : Obligations.CmpCommand := by
  unfold Obligations.CmpCommand
  refine ⟨encoding_cmp, fun s rs1 rs2 hinv => ?_⟩
  have h := hinv.reg_length_eq rs1 rs2
  rw [← cmpWide_eq_zero_iff h, ← cmpWide_eq_one_iff h, ← cmpWide_eq_neg_one_iff h, exec_cmp]
  refine ⟨fun heq => ?_, fun hgt => ?_, fun hlt => ?_⟩
  · rw [heq]; rfl
  · rw [hgt]; rfl
  · rw [hlt]; rfl

end Sys2Proof.Machine
end

section
/-!
PROOFS. Modular reduction: its laws at every length (R151, R154), and the commands REDUCE and REDUCEX
(R152, R153).
-/
namespace Sys2Proof.Machine
open Sys2Proof.Statements

/-! ### The function -/

/-- Settles O22: `reduceWide_spec`, and a remainder is below its modulus. -/
theorem reductionIsRemainder : Obligations.ReductionIsRemainder := by
  unfold Obligations.ReductionIsRemainder
  intro N A M hM hN hm
  obtain ⟨hlength, hvalue⟩ := reduceWide_spec hM hN hm
  exact ⟨hlength, hvalue, hvalue ▸ Nat.mod_lt _ hm⟩

/-- The reduction is a function of the remainder: dividends that agree modulo the modulus have one
result, whatever their lengths. -/
theorem reduceWide_congr {N : Nat} {A B M : Wide} (hM : M.length = N) (hA : N ≤ A.length)
    (hB : N ≤ B.length) (hm : 0 < val M) (h : val A % val M = val B % val M) :
    reduceWide N A M = reduceWide N B M := by
  obtain ⟨hlengthA, hvalueA⟩ := reduceWide_spec hM hA hm
  obtain ⟨hlengthB, hvalueB⟩ := reduceWide_spec hM hB hm
  exact eq_of_val_eq (hlengthA.trans hlengthB.symm) (hvalueA.trans (h.trans hvalueB.symm))

/-- Settles O23, by `reduceWide_congr`: widening keeps the value, and a remainder is its own remainder. -/
theorem reductionLaws : Obligations.ReductionLaws := by
  unfold Obligations.ReductionLaws
  intro N L A M hM hN hL hm
  obtain ⟨hlength, hvalue⟩ := reduceWide_spec hM hN hm
  have hwide : N ≤ (zext L A).length := (hN.trans hL.le).trans_eq (length_zext hL.le).symm
  constructor
  · exact reduceWide_congr hM hwide hN hm (by rw [val_zext])
  · exact reduceWide_congr hM hlength.ge hN hm (by rw [hvalue, Nat.mod_mod])

/-! ### The commands -/

/-- REDUCE, REDUCEX, MODINV: the unused fields of format RM are `rs2` and all from bit 24 up. -/
theorem maskRM_iff_field {p : Word} (hp : p.toNat < 256) (c : Word) :
    c &&& 0xFFFFFFFFFF0F00FF = p ↔
      field c 7 0 = p.toNat ∧ field c 19 16 = 0 ∧ field c 63 24 = 0 :=
  mask_zones_iff (by decide) hp

theorem encoding_reduce : Encoding 0x08 (fun c => field c 19 16 = 0 ∧ field c 63 24 = 0)
    (fun c => .reduce (regField c 8) (regField c 12) (regField c 20)) := by
  refine encoding_of_row (row := opcodeTable[7]) (by decide) (maskRM_iff_field (by decide)) fun c => ?_
  obtain ⟨-, -, -, -, -, -, -, hreduce, -⟩ := opcodeTableIsTheDecoder.1 c
  exact hreduce.mp

theorem encoding_reducex : Encoding 0x09 (fun c => field c 19 16 = 0 ∧ field c 63 24 = 0)
    (fun c => .reducex (regField c 8) (regField c 12) (regField c 20)) := by
  refine encoding_of_row (row := opcodeTable[8]) (by decide) (maskRM_iff_field (by decide)) fun c => ?_
  obtain ⟨-, -, -, -, -, -, -, -, hreducex, -⟩ := opcodeTableIsTheDecoder.1 c
  exact hreducex.mp

theorem forbiddenInPlace_reduce_iff (rd rs1 rm : Reg) :
    ForbiddenInPlace (.reduce rd rs1 rm) ↔ rd = rs1 ∨ rd = rm :=
  (failsInPlaceCheck_iff _).symm.trans (aliasesTwo_iff rd rs1 rm)

theorem forbiddenInPlace_reducex_iff (rd rs1 rm : Reg) :
    ForbiddenInPlace (.reducex rd rs1 rm) ↔ rd = rs1 ∨ rd = rm :=
  (failsInPlaceCheck_iff _).symm.trans (aliasesTwo_iff rd rs1 rm)

/-- The two errors of a command whose sources are an operand and the modulus, in their order: the in-place
check comes first (R93, R201, R205). -/
theorem exec_errors_of_operandAndModulus {i : Instr} {rd a rm : Reg}
    (hforbidden : ForbiddenInPlace i ↔ rd = a ∨ rd = rm) (hrm : modulus i = some rm) (s : State) :
    (rd = a ∨ rd = rm → exec i s = .next (failed 6 s)) ∧
      (rd ≠ a ∧ rd ≠ rm → val (s.reg rm) = 0 → exec i s = .next (failed 1 s)) :=
  ⟨fun hf => exec_of_forbiddenInPlace (hforbidden.mpr hf) s,
    fun hne hz => exec_of_zeroModulus (hforbidden.not.mpr (not_or.mpr hne)) hrm hz⟩

/-- Past its two checks REDUCE completes with the remainder of `R[rs1]` (R152). -/
theorem exec_reduce_of_ne {rd rs1 rm : Reg} (h1 : rd ≠ rs1) (h2 : rd ≠ rm) {s : State}
    (hm : val (s.reg rm) ≠ 0) :
    exec (.reduce rd rs1 rm) s =
      .next (complete plainStatus (s.setReg rd (reduceWide s.n (s.reg rs1) (s.reg rm)))) :=
  congrArg Host.Outcome.next
    ((if_neg fun ha => ((aliasesTwo_iff rd rs1 rm).mp ha).elim h1 h2).trans
      (if_neg ((isZero_iff (s.reg rm)).not.mpr hm)))

/-- Settles O13: the two checks in their order, then `reduceWide` at `N` words. -/
theorem reduceCommand : Obligations.ReduceCommand := by
  unfold Obligations.ReduceCommand
  refine ⟨encoding_reduce, fun s rd rs1 rm hinv => ?_⟩
  obtain ⟨haliased, hzero⟩ :=
    exec_errors_of_operandAndModulus (forbiddenInPlace_reduce_iff rd rs1 rm) rfl s
  refine ⟨haliased, hzero, fun ⟨h1, h2⟩ hm => ?_⟩
  obtain ⟨hlength, hvalue⟩ :=
    reduceWide_spec (hinv.reg_length rm) (hinv.reg_length rs1).ge (Nat.pos_of_ne_zero hm)
  exact ⟨_, hlength, hvalue, exec_reduce_of_ne h1 h2 hm⟩

theorem State.Inv.length_extendedDividend {s : State} (h : s.Inv) (rs1 : Reg) :
    (extendedDividend s rs1).length = s.n + 1 := by
  rw [extendedDividend, List.length_append, h.reg_length, List.length_singleton]

/-- XW is the dividend's top word, above the `N` words of the register (R153). -/
theorem State.Inv.val_extendedDividend {s : State} (h : s.Inv) (rs1 : Reg) :
    val (extendedDividend s rs1) = s.xw.toNat * 2 ^ (64 * s.n) + val (s.reg rs1) := by
  have htop : val [s.xw] = s.xw.toNat := by simp [val_cons]
  rw [extendedDividend, val_append, h.reg_length, htop, Nat.mul_comm, Nat.add_comm]

/-- Settles O14: the two checks in their order, then `reduceWide` of the `N + 1` words `{XW, R[rs1]}`. -/
theorem reducexCommand : Obligations.ReducexCommand := by
  unfold Obligations.ReducexCommand
  refine ⟨encoding_reducex, fun s rd rs1 rm hinv => ?_⟩
  obtain ⟨haliased, hzero⟩ :=
    exec_errors_of_operandAndModulus (forbiddenInPlace_reducex_iff rd rs1 rm) rfl s
  refine ⟨haliased, hzero, fun ⟨h1, h2⟩ hm => ?_⟩
  have hlong : s.n ≤ (extendedDividend s rs1).length :=
    hinv.length_extendedDividend rs1 ▸ Nat.le_succ s.n
  obtain ⟨hlength, hvalue⟩ :=
    reduceWide_spec (hinv.reg_length rm) hlong (Nat.pos_of_ne_zero hm)
  rw [hinv.val_extendedDividend] at hvalue
  exact ⟨_, hlength, hvalue, exec_reducex_of_ne h1 h2 hm⟩

end Sys2Proof.Machine
end

section
/-!
PROOFS. Modular multiplication: the encoding of format R4, the errors of a command with two operands and
a modulus, and the command MODMUL (R161).
-/
namespace Sys2Proof.Machine
open Sys2Proof.Statements

/-! ### Format R4 -/

/-- MODMUL, MODEXP: the unused fields of format R4 lie side by side, from bit 24 up. -/
theorem maskR4_iff_field {p : Word} (hp : p.toNat < 256) (c : Word) :
    c &&& 0xFFFFFFFFFF0000FF = p ↔ field c 7 0 = p.toNat ∧ field c 63 24 = 0 := by
  rw [mask_zones_iff (h1 := 63) (l1 := 24) (h2 := 63) (l2 := 24) (by decide) hp, and_self]
  rfl

theorem encoding_modmul : Encoding 0x0A (fun c => field c 63 24 = 0)
    (fun c => .modmul (regField c 8) (regField c 12) (regField c 16) (regField c 20)) := by
  refine encoding_of_row (row := opcodeTable[9]) (by decide) (maskR4_iff_field (by decide)) fun c => ?_
  obtain ⟨-, -, -, -, -, -, -, -, -, hmodmul, -⟩ := opcodeTableIsTheDecoder.1 c
  exact hmodmul.mp

/-! ### The command -/

/-- The two errors of a command whose sources are two operands and the modulus, in their order: the
in-place check comes first (R93, R201, R205). -/
theorem exec_errors_of_twoOperandsAndModulus {i : Instr} {rd a b rm : Reg}
    (hforbidden : ForbiddenInPlace i ↔ rd = a ∨ rd = b ∨ rd = rm) (hrm : modulus i = some rm)
    (s : State) :
    (rd = a ∨ rd = b ∨ rd = rm → exec i s = .next (failed 6 s)) ∧
      (rd ≠ a ∧ rd ≠ b ∧ rd ≠ rm → val (s.reg rm) = 0 → exec i s = .next (failed 1 s)) := by
  refine ⟨fun hf => exec_of_forbiddenInPlace (hforbidden.mpr hf) s, fun hne hz => ?_⟩
  have hallowed : ¬ ForbiddenInPlace i := by simpa [hforbidden] using hne
  exact exec_of_zeroModulus hallowed hrm hz

theorem forbiddenInPlace_modmul_iff (rd rs1 rs2 rm : Reg) :
    ForbiddenInPlace (.modmul rd rs1 rs2 rm) ↔ rd = rs1 ∨ rd = rs2 ∨ rd = rm :=
  (failsInPlaceCheck_iff _).symm.trans (aliasesThree_iff rd rs1 rs2 rm)

/-- Past its two checks MODMUL completes with the product modulo `R[rm]` (R161). -/
theorem exec_modmul_of_ne {rd rs1 rs2 rm : Reg} (hne : rd ≠ rs1 ∧ rd ≠ rs2 ∧ rd ≠ rm) {s : State}
    (hm : val (s.reg rm) ≠ 0) :
    exec (.modmul rd rs1 rs2 rm) s = .next (complete plainStatus
      (s.setReg rd (modmulWide s.n (s.reg rs1) (s.reg rs2) (s.reg rm)))) := by
  have halias : ¬ aliasesThree rd rs1 rs2 rm = true := by simpa [aliasesThree_iff] using hne
  exact congrArg Host.Outcome.next
    ((if_neg halias).trans (if_neg ((isZero_iff (s.reg rm)).not.mpr hm)))

/-- Settles O15: the two checks in their order, then `modmulWide` at `N` words, which asks no bound of
the operands. -/
theorem modmulCommand : Obligations.ModmulCommand := by
  unfold Obligations.ModmulCommand
  refine ⟨encoding_modmul, fun s rd rs1 rs2 rm hinv => ?_⟩
  obtain ⟨haliased, hzero⟩ :=
    exec_errors_of_twoOperandsAndModulus (forbiddenInPlace_modmul_iff rd rs1 rs2 rm) rfl s
  refine ⟨haliased, hzero, fun hne hm => ?_⟩
  obtain ⟨hlength, hvalue⟩ := modmulWide_spec (hinv.reg_length rs1) (hinv.reg_length rs2)
    (hinv.reg_length rm) (Nat.pos_of_ne_zero hm)
  exact ⟨_, hlength, hvalue, exec_modmul_of_ne hne hm⟩

end Sys2Proof.Machine
end

section
/-!
PROOFS. Modular exponentiation: the command MODEXP (R171), whose value is that of R172.
-/
namespace Sys2Proof.Machine
open Sys2Proof.Statements

theorem encoding_modexp : Encoding 0x0B (fun c => field c 63 24 = 0)
    (fun c => .modexp (regField c 8) (regField c 12) (regField c 16) (regField c 20)) := by
  refine encoding_of_row (row := opcodeTable[10]) (by decide) (maskR4_iff_field (by decide)) fun c => ?_
  obtain ⟨-, -, -, -, -, -, -, -, -, -, hmodexp, -⟩ := opcodeTableIsTheDecoder.1 c
  exact hmodexp.mp

theorem forbiddenInPlace_modexp_iff (rd rs1 rs2 rm : Reg) :
    ForbiddenInPlace (.modexp rd rs1 rs2 rm) ↔ rd = rs1 ∨ rd = rs2 ∨ rd = rm :=
  (failsInPlaceCheck_iff _).symm.trans (aliasesThree_iff rd rs1 rs2 rm)

/-- Past its two checks MODEXP completes with the power modulo `R[rm]` (R171). -/
theorem exec_modexp_of_ne {rd rs1 rs2 rm : Reg} (hne : rd ≠ rs1 ∧ rd ≠ rs2 ∧ rd ≠ rm) {s : State}
    (hm : val (s.reg rm) ≠ 0) :
    exec (.modexp rd rs1 rs2 rm) s = .next (complete plainStatus
      (s.setReg rd (modexpWide s.n (s.reg rs1) (s.reg rs2) (s.reg rm)))) := by
  have halias : ¬ aliasesThree rd rs1 rs2 rm = true := by simpa [aliasesThree_iff] using hne
  exact congrArg Host.Outcome.next
    ((if_neg halias).trans (if_neg ((isZero_iff (s.reg rm)).not.mpr hm)))

/-- Settles O16: the two checks in their order, then `modexpWide` at `N` words, which returns its initial
result 1, never reduced, where the exponent is 0. -/
theorem modexpCommand : Obligations.ModexpCommand := by
  unfold Obligations.ModexpCommand
  refine ⟨encoding_modexp, fun s rd rs1 rs2 rm hinv => ?_⟩
  obtain ⟨haliased, hzero⟩ :=
    exec_errors_of_twoOperandsAndModulus (forbiddenInPlace_modexp_iff rd rs1 rs2 rm) rfl s
  refine ⟨haliased, hzero, fun hne hm => ?_⟩
  obtain ⟨hlength, hone, hpower⟩ := modexpWide_spec (E := s.reg rs2) (hinv.reg_length rs1)
    (hinv.reg_length rm) (Nat.pos_of_ne_zero hm)
  exact ⟨_, hlength, hone, hpower, exec_modexp_of_ne hne hm⟩

end Sys2Proof.Machine
end

section
/-!
PROOFS. Modular inversion: the command MODINV (R181) with the value of R180, and that a value times its
inverse is 1 (R182).
-/
namespace Sys2Proof.Machine
open Sys2Proof.Statements

/-! ### The command -/

theorem encoding_modinv : Encoding 0x0C (fun c => field c 19 16 = 0 ∧ field c 63 24 = 0)
    (fun c => .modinv (regField c 8) (regField c 12) (regField c 20)) := by
  refine encoding_of_row (row := opcodeTable[11]) (by decide) (maskRM_iff_field (by decide)) fun c => ?_
  obtain ⟨-, -, -, -, -, -, -, -, -, -, -, hmodinv⟩ := opcodeTableIsTheDecoder.1 c
  exact hmodinv.mp

theorem forbiddenInPlace_modinv_iff (rd rs1 rm : Reg) :
    ForbiddenInPlace (.modinv rd rs1 rm) ↔ rd = rs1 ∨ rd = rm :=
  (failsInPlaceCheck_iff _).symm.trans (aliasesTwo_iff rd rs1 rm)

section PastBothChecks

variable {s : State} {rd rs1 rm : Reg} (hinv : s.Inv) (hne : rd ≠ rs1 ∧ rd ≠ rm)
  (hm : val (s.reg rm) ≠ 0)
include hinv hne hm

/-- MODINV past its two checks raises NoInverseError where the operands have a common factor (R202). -/
theorem exec_modinv_of_gcd_ne_one (hgcd : Nat.gcd (val (s.reg rs1)) (val (s.reg rm)) ≠ 1) :
    exec (.modinv rd rs1 rm) s = .next (raise .noInverseError s) := by
  have halias := (aliasesTwo_iff rd rs1 rm).not.mpr (not_or.mpr hne)
  have hzero := (isZero_iff (s.reg rm)).not.mpr hm
  obtain ⟨hnone, -⟩ := modinvWide_spec (A := s.reg rs1) (hinv.reg_length rm) (Nat.pos_of_ne_zero hm)
  rw [exec, execModinv, if_neg halias, if_neg hzero, hnone hgcd]

/-- MODINV past its two checks completes with the inverse below the modulus where the operands have no
common factor (R180, R181). -/
theorem exec_modinv_of_gcd_eq_one (hgcd : Nat.gcd (val (s.reg rs1)) (val (s.reg rm)) = 1) :
    ∃ X : Wide, X.length = s.n ∧ val X < val (s.reg rm) ∧
      val (s.reg rs1) * val X % val (s.reg rm) = 1 % val (s.reg rm) ∧
      exec (.modinv rd rs1 rm) s = .next (complete plainStatus (s.setReg rd X)) := by
  have halias := (aliasesTwo_iff rd rs1 rm).not.mpr (not_or.mpr hne)
  have hzero := (isZero_iff (s.reg rm)).not.mpr hm
  obtain ⟨-, hsome⟩ := modinvWide_spec (A := s.reg rs1) (hinv.reg_length rm) (Nat.pos_of_ne_zero hm)
  obtain ⟨X, hX, hlength, hlt, hinverse⟩ := hsome hgcd
  exact ⟨X, hlength, hlt, hinverse, by rw [exec, execModinv, if_neg halias, if_neg hzero, hX]⟩

end PastBothChecks

/-- Settles O17: the two checks in their order, then `modinvWide` at `N` words, which has a result exactly
where the operands have no common factor. -/
theorem modinvCommand : Obligations.ModinvCommand := by
  unfold Obligations.ModinvCommand
  refine ⟨encoding_modinv, fun s rd rs1 rm hinv => ?_⟩
  obtain ⟨haliased, hzero⟩ :=
    exec_errors_of_operandAndModulus (forbiddenInPlace_modinv_iff rd rs1 rm) rfl s
  exact ⟨haliased, hzero, exec_modinv_of_gcd_ne_one hinv, exec_modinv_of_gcd_eq_one hinv⟩

/-! ### MODINV, then MODMUL -/

/-- A completion with `ERR = 0` is no error completion. -/
theorem ne_raise_of_err_eq_zero {a : Answer} {t : State} (ht : a = .next t) (herr : t.status.err = 0)
    (e : Error) (s : State) : a ≠ .next (raise e s) := fun ha =>
  errorCode_ne_zero e ((err_of_raise ha ht).symm.trans herr)

/-- What `ERR = 0` after MODINV tells: no check failed, and `R[rd]` is the inverse (R181). -/
theorem modinv_of_err_eq_zero {s t : State} {rd rs1 rm : Reg} (hinv : s.Inv)
    (ht : exec (.modinv rd rs1 rm) s = .next t) (herr : t.status.err = 0) :
    (rd ≠ rs1 ∧ rd ≠ rm) ∧ val (s.reg rm) ≠ 0 ∧ ∃ X : Wide, X.length = s.n ∧
      val (s.reg rs1) * val X % val (s.reg rm) = 1 % val (s.reg rm) ∧
      t = complete plainStatus (s.setReg rd X) := by
  have hno := ne_raise_of_err_eq_zero ht herr
  obtain ⟨haliased, hzero⟩ :=
    exec_errors_of_operandAndModulus (forbiddenInPlace_modinv_iff rd rs1 rm) rfl s
  have hne : rd ≠ rs1 ∧ rd ≠ rm := not_or.mp fun hf => hno .aliasError s (haliased hf)
  have hm : val (s.reg rm) ≠ 0 := fun hz => hno .domainError s (hzero hne hz)
  have hgcd : Nat.gcd (val (s.reg rs1)) (val (s.reg rm)) = 1 := of_not_not fun hg =>
    hno .noInverseError s (exec_modinv_of_gcd_ne_one hinv hne hm hg)
  obtain ⟨X, hlength, -, hinverse, hexec⟩ := exec_modinv_of_gcd_eq_one hinv hne hm hgcd
  exact ⟨hne, hm, X, hlength, hinverse, Host.Outcome.next.inj (ht.symm.trans hexec)⟩

/-- Settles O27: MODMUL finds the inverse in `rd` and the value and the modulus unchanged, so its product
is 1 modulo the modulus. -/
theorem inverseTimesValueIsOne : Obligations.InverseTimesValueIsOne := by
  unfold Obligations.InverseTimesValueIsOne
  intro s t rd rs1 rm rd' hinv ht herr h1 hrd hrm
  obtain ⟨⟨hne1, hnem⟩, hm, X, hlength, hinverse, rfl⟩ := modinv_of_err_eq_zero hinv ht herr
  have hkeep1 : (complete plainStatus (s.setReg rd X)).reg rs1 = s.reg rs1 := reg_setReg_ne s X hne1
  have hkeepm : (complete plainStatus (s.setReg rd X)).reg rm = s.reg rm := reg_setReg_ne s X hnem
  obtain ⟨-, hproduct⟩ := modmulWide_spec (hinv.reg_length rs1) hlength (hinv.reg_length rm)
    (Nat.pos_of_ne_zero hm)
  refine ⟨_, exec_modmul_of_ne ⟨h1, hrd, hrm⟩ (hkeepm.symm ▸ hm), ?_⟩
  rw [complete_reg, reg_setReg_same, hkeep1, hkeepm, complete_reg, reg_setReg_same, complete_n, setReg_n,
    hproduct, hinverse]
  exact ⟨Nat.mod_eq_of_lt, fun hone => by rw [hone]⟩

end Sys2Proof.Machine
end

section
/-!
PROOFS. What an error completion changes (R206), that the primitives never raise on values (R210), and
reset (R230, R231, R232).
-/
namespace Sys2Proof.Machine
open Sys2Proof.Statements

/-! ### Errors -/

/-- A command that ends with a nonzero ERR has changed STATUS alone (R206). -/
theorem runCommand_eq_failed {s t : State} (h : runCommand s = .next t) (herr : t.status.err ≠ 0) :
    t = failed t.status.err s := by
  obtain ⟨_, -, rfl⟩ | ⟨i, -, -, hE⟩ := runCommand_ends h
  · rfl
  · cases hE with
    | byError => rfl
    | normally _ _ _ _ _ hzero => exact absurd hzero herr

/-- Settles O30: a due step is the end of the command in CMD. -/
theorem errorCompletionChangesStatusOnly : Obligations.ErrorCompletionChangesStatusOnly := by
  unfold Obligations.ErrorCompletionChangesStatusOnly
  intro s t hdue hstep herr
  exact runCommand_eq_failed ((step_due hdue).symm.trans hstep) herr

/-- A command without a modulus check completes, and only its register numbers can make it raise. -/
theorem exec_of_noModulus {i : Instr} (hrm : modulus i = none) (s : State) :
    ∃ t, exec i s = .next t ∧
      (ForbiddenInPlace i → t.status.err = 6) ∧ (¬ ForbiddenInPlace i → t.status.err = 0) := by
  obtain ⟨t, ht, -⟩ := exec_ends i s
  exact ⟨t, ht, fun hf => err_of_raise (exec_of_forbiddenInPlace hf s) ht,
    fun hf => err_of_noModulus hf hrm ht⟩

/-- Settles O31: none of the primitives checks a modulus, and SHL, SHR, BITLEN and CMP have no forbidden
in-place use. -/
theorem primitivesNeverRaiseOnValues : Obligations.PrimitivesNeverRaiseOnValues := by
  unfold Obligations.PrimitivesNeverRaiseOnValues
  intro s rd rs1 rs2 imm
  refine ⟨fun i hi => ?_, fun i hi => ?_⟩
  · have hi' : modulus i = none ∧ ¬ failsInPlaceCheck i = true := by
      simp only [List.mem_cons, List.not_mem_nil, or_false] at hi
      obtain rfl | rfl | rfl | rfl := hi <;> exact ⟨rfl, Bool.false_ne_true⟩
    obtain ⟨hrm, hcheck⟩ := hi'
    obtain ⟨t, ht, -, herr⟩ := exec_of_noModulus hrm s
    exact ⟨t, ht, herr ((failsInPlaceCheck_iff i).not.mp hcheck)⟩
  · have hrm : modulus i = none := by
      simp only [List.mem_cons, List.not_mem_nil, or_false] at hi
      obtain rfl | rfl | rfl := hi <;> rfl
    exact exec_of_noModulus hrm s

/-! ### Reset -/

/-- Settles O43: the step is the reset, whose registers have `N` words. -/
theorem resetEffect : Obligations.ResetEffect := by
  unfold Obligations.ResetEffect
  intro s rest hhost
  exact ⟨_, step_reset hhost, rfl, rfl, rfl, rfl, rfl, resetWith_reg_length _ _ _ _, rfl, rfl⟩

/-- Settles O44: what reset makes depends on the width, the host's side and the draw number only. -/
theorem resetLeavesNothingBehind : Obligations.ResetLeavesNothingBehind := by
  unfold Obligations.ResetLeavesNothingBehind
  intro s₁ s₂ rest hn hhost₁ hhost₂ hreplies hfresh
  rw [step_reset hhost₁, step_reset hhost₂]
  simp only [resetEngine, hn, hreplies, hfresh]

end Sys2Proof.Machine
end
